-- ==== Sys2Proof/Word.lean ====
section
/-! DEFINITION. The word types of the LEB128 CORE: the 64-bit value, the 8-bit encoded byte and the 7-bit group
(00_scope R7, R8; 20_memory R45). -/

namespace Sys2Proof

/-- An integer value, `W = 64` bits (00_scope R7, 42_laws R130): which reading, unsigned or signed, is the operation's. -/
abbrev Word := BitVec 64

/-- One encoded byte (30_encoding R60). -/
abbrev Byte := BitVec 8

/-- The `G = 7` payload bits one encoded byte carries (00_scope R7, R12). -/
abbrev Group := BitVec 7

end Sys2Proof
end

