-- ==== Sys2Proof/Config.lean ====
section
/-! DEFINITION. What is fixed when the hardware is built: the parameters of 00_scope R7, never changed by an operation
(10_state R26). `CHAIN` is the constant `permissive` (R7, decision D3): no parameter, the decodes never look at bit 7. -/

namespace Sys2Proof

/-- The parameters marked "configuration" in 00_scope R7. -/
structure Config where
  /-- `MAXLEN`: the longest byte sequence a decode accepts; a longer one raises LengthOverflow. -/
  maxlen : Nat
  /-- `SPAD`: whether ENCS appends a zero group to a nonnegative value whose top group has bit 0x40 set. -/
  spad : Bool
  /-- `INCAP`: the longest byte sequence the interface can present to a decode. -/
  incap : Nat
  deriving DecidableEq, Repr

/-- By how much `INCAP` exceeds `MAXLEN`: left OPEN by the spec (00_scope R7, decision D12), so a free value
(log entry 5, safe). -/
opaque Config.incapExtra : Nat

/-- This hardware: `MAXLEN = 10` (decision D1, log entry 6), `SPAD = 1` (decision D2, log entry 7), `INCAP ≥ MAXLEN`. -/
def Config.core : Config :=
  { maxlen := 10, spad := true, incap := 10 + Config.incapExtra }

/-- The settings the spec keeps on record as the source's software (00_scope R7): `MAXLEN = 8`, `SPAD = 0`.
Not this hardware; the interworking claims (70_reset R187) are stated with it. -/
def Config.sourceSoftware : Config :=
  { maxlen := 8, spad := false, incap := 8 + Config.incapExtra }

/-- `NG`: the largest number of groups an encoder emits, ⌈64/7⌉ (00_scope R7). -/
abbrev Config.maxGroups : Nat := 10

/-- `OUTCAP`: the capacity in bytes of an encode result (00_scope R7). -/
abbrev Config.outcap : Nat := 10

/-- The block's identifier string (00_scope R1, decision D21). -/
def Config.identifier : String := "LEB128-CORE-64"

end Sys2Proof
end

