-- ==== Sys2Proof/Syntax.lean ====
section
/-! DEFINITION. What a host sends: the request as the interface carries it (10_state R21), and the operation it asks for
with the operand that operation uses, one constructor per row of the opcode table (30_encoding R69). -/

namespace Sys2Proof

/-- A request: the three fields of 10_state R21. `req.len` is `seq.length`. -/
structure Request where
  /-- `req.op`, the operation select (30_encoding R68): bit 1 is `SGN`, bit 0 is `DIR`. -/
  op : BitVec 2
  /-- `req.val`, the integer to encode. -/
  val : Word
  /-- `req.seq`, the encoded form to decode, `req.seq[0]` first. -/
  seq : List Byte
  deriving DecidableEq, Repr

/-- The four operations (00_scope R2), each with its one operand. -/
inductive Instr where
  /-- ENCU, `encodeUnsigned` (40_encode R90). -/
  | encu (val : Word)
  /-- DECU, `decodeUnsigned` (41_decode R110). -/
  | decu (seq : List Byte)
  /-- ENCS, `encodeSigned` (40_encode R94): `val` is read as two's complement. -/
  | encs (val : Word)
  /-- DECS, `decodeSigned` (41_decode R115). -/
  | decs (seq : List Byte)
  deriving DecidableEq, Repr

/-- The mnemonic the spec writes an operation with (30_encoding R69, R73). -/
def Instr.mnemonic : Instr → String
  | .encu _ => "ENCU"
  | .decu _ => "DECU"
  | .encs _ => "ENCS"
  | .decs _ => "DECS"

/-- The source's name of an operation (00_scope R2, 30_encoding R69). -/
def Instr.sourceName : Instr → String
  | .encu _ => "encodeUnsigned"
  | .decu _ => "decodeUnsigned"
  | .encs _ => "encodeSigned"
  | .decs _ => "decodeSigned"

/-- Whether the operation reads or produces a signed integer: the `SGN` column of 30_encoding R68. -/
def Instr.isSigned : Instr → Bool
  | .encu _ => false
  | .decu _ => false
  | .encs _ => true
  | .decs _ => true

/-- Whether the operation decodes: the `DIR` column of 30_encoding R68. -/
def Instr.isDecode : Instr → Bool
  | .encu _ => false
  | .decu _ => true
  | .encs _ => false
  | .decs _ => true

end Sys2Proof
end

