-- ==== Sys2Proof/WellFormed.lean ====
section
/-! DEFINITION. The interface's domain (42_laws R141): every operand of an encode, and every nonempty sequence for a
decode (41_decode R120). Nothing else is ill-formed: chains, minimality and length are no part of the domain
(30_encoding R70). -/

namespace Sys2Proof

/-- An operation is well-formed when its request lies in the interface's domain: a decode is given at least one byte
(41_decode R120, 70_reset R183(a)). -/
def Instr.wf : Instr → Bool
  | .encu _ => true
  | .decu seq => !seq.isEmpty
  | .encs _ => true
  | .decs seq => !seq.isEmpty

end Sys2Proof
end

