-- ==== Sys2Proof/Decode.lean ====
section
/-! DEFINITION. The operation select: from a request to the operation it asks for, and back (30_encoding R68, R69).
The select decoder is total, since all four codes are used (R69, R71); only a number that is no 2-bit select at all is
rejected, by name. -/

namespace Sys2Proof

/-- The operation a request asks for (30_encoding R68, R69): `SGN` is bit 1 and `DIR` is bit 0 of `req.op`. The field the
operation does not use is dropped here, so it can have no effect (10_state R21, decision D17). -/
def decode (r : Request) : Instr :=
  match r.op.getLsbD 1, r.op.getLsbD 0 with
  | false, false => .encu r.val
  | false, true => .decu r.seq
  | true, false => .encs r.val
  | true, true => .decs r.seq

/-- The request a host sends for an operation (30_encoding R69). DESIGN CHOICE (log entry 9, safe): the field the operation
does not use is sent as zero or as no bytes; the CORE ignores it (decision D17). -/
def encode : Instr → Request
  | .encu v => { op := 0b00#2, val := v, seq := [] }
  | .decu s => { op := 0b01#2, val := 0, seq := s }
  | .encs v => { op := 0b10#2, val := v, seq := [] }
  | .decs s => { op := 0b11#2, val := 0, seq := s }

/-- One row of the opcode table. -/
structure TableRow where
  mnemonic : String
  mask : BitVec 2
  pattern : BitVec 2
  deriving DecidableEq, Repr

/-- The opcode table (spec/opcode_table.json, 30_encoding R69). -/
def opcodeTable : List TableRow :=
  [ { mnemonic := "ENCU", mask := 0x3#2, pattern := 0x0#2 },
    { mnemonic := "DECU", mask := 0x3#2, pattern := 0x1#2 },
    { mnemonic := "ENCS", mask := 0x3#2, pattern := 0x2#2 },
    { mnemonic := "DECS", mask := 0x3#2, pattern := 0x3#2 } ]

/-- Whether a select matches a row of the table. -/
def TableRow.accepts (row : TableRow) (op : BitVec 2) : Bool :=
  op &&& row.mask == row.pattern

/-- Why a number is no operation select. -/
inductive SelectError where
  /-- Fewer than the 2 bits of format `CMD` (30_encoding R68). -/
  | tooFewBits (nbits : Nat)
  /-- A bit above bit 1 is set: `req.op` has 2 bits (30_encoding R68). -/
  | notTwoBits (w : Nat)
  deriving DecidableEq, Repr

/-- The select in a word of `nbits` bits whose value is `w`. DESIGN CHOICE (log entry 4, safe): the interface has no word
that holds a select, so bits above the select's two must be zero. -/
def selectOfWord (nbits w : Nat) : Except SelectError (BitVec 2) :=
  if nbits < 2 then .error (.tooFewBits nbits)
  else if w < 4 then .ok (BitVec.ofNat 2 w)
  else .error (.notTwoBits w)

/-- The request with a given select and an operand of zeros: value 0, and the one-byte sequence of a zero byte, the
shortest a decode admits (41_decode R120). DESIGN CHOICE (log entry 4, safe). -/
def requestOfSelect (op : BitVec 2) : Request :=
  { op := op, val := 0, seq := [0x00#8] }

/-- The operation the decoder reads from a word of the opcode table with an operand of zeros; none where the word is no
select. -/
def decodeTableWord (nbits w : Nat) : Option Instr :=
  match selectOfWord nbits w with
  | .ok op => some (decode (requestOfSelect op))
  | .error _ => none

end Sys2Proof
end

