-- ==== Sys2Proof/Machine/State.lean ====
section
/-! DEFINITION. The machine's state as plain data. The CORE has no architectural state at all (10_state R20, R23 to R29);
what the spec names is the transaction's interface, and State holds exactly that (log entry 1). -/

namespace Sys2Proof.Machine

/-- A response: the three fields of 10_state R22. A field the operation does not write is absent and no claim can read it
(decision D16). -/
structure Response where
  /-- `rsp.status` (60_exceptions R151). -/
  status : BitVec 2
  /-- `rsp.val`: the decoded integer of a decode that answered OK, absent otherwise. -/
  val : Option Word
  /-- `rsp.seq`: the encoded form of an encode, absent otherwise. -/
  seq : Option (List Byte)
  deriving DecidableEq, Repr

/-- What an operation comes to: the shapes of 10_state R31. -/
inductive Result where
  /-- An encode's byte sequence. -/
  | encoded (seq : List Byte)
  /-- A decode's 64-bit value. -/
  | decoded (val : Word)
  /-- The one error (60_exceptions R151): an ordinary, final outcome (R155). -/
  | lengthOverflow
  /-- No result: the request lies outside the interface's domain (41_decode R120). -/
  | outsideDomain
  deriving DecidableEq, Repr

/-- The machine state. Both fields are the MODEL's way to hold the interface (DESIGN CHOICE, log entry 1). -/
structure State where
  /-- The requests of outstanding transactions, the next to be taken first (10_state R21, 60_exceptions R161). -/
  pending : List Request
  /-- The response of the transaction that ended last; none before the first (10_state R22, R30). -/
  rsp : Option Response
  deriving DecidableEq, Repr

/-- The reasons the hardware itself stops: none. Every request in the domain has a response (42_laws R141, R142), and the
one error is a response (60_exceptions R155), so this type has no constructor. -/
inductive Fault where
  deriving DecidableEq, Repr

/-- Why the model gives no meaning. -/
inductive Refusal where
  /-- Raised by exec alone, for an instruction without a meaning. Safe. -/
  | notModelled (mnemonic : String)
  /-- Raised by DECU and DECS for `req.len = 0`: outside the interface's domain, the hardware's behaviour is unspecified
  and the spec tells a model to refuse (41_decode R120, decision D7, log entry 8). Safe. -/
  | emptySequence
  deriving DecidableEq, Repr

/-- The machine after reset: no response, the spec's own (10_state R30), and no request outstanding (DESIGN CHOICE, log
entry 2). -/
def State.reset : State :=
  { pending := [], rsp := none }

end Sys2Proof.Machine
end

