-- ==== Sys2Proof/Machine/Operands.lean ====
section
/-! DEFINITION. The encoded byte and the arithmetic of 00_scope R10: fields of a byte, groups of a number, the unsigned and
signed value of a sequence (30_encoding R60 to R63), bit-length, masked complement, and the conversions to and from 64
bits. -/

namespace Sys2Proof.Machine

/-- The payload of an encoded byte, bits 6 to 0 (30_encoding R60). -/
def payload (b : Byte) : Group := b.extractLsb' 0 7

/-- The continuation bit, bit 7, mask 0x80 (30_encoding R60). -/
def continuation (b : Byte) : Bool := b.getLsbD 7

/-- Bit 6 of a byte, mask 0x40: the sign bit when the byte is the last (30_encoding R60, R63). -/
def signBit (b : Byte) : Bool := b.getLsbD 6

/-- The byte with its continuation bit set, `g | 0x80` in the pseudocode of 40_encode R90. -/
def setContinuation (b : Byte) : Byte := b ||| 0x80#8

/-- The encoded byte that carries a group, with the continuation bit set when more bytes follow (30_encoding R60). -/
def encodedByte (more : Bool) (g : Group) : Byte :=
  if more then setContinuation (g.setWidth 8) else g.setWidth 8

/-- Group `i` of a number: bits `7i+6..7i` (00_scope R12). -/
def group (t i : Nat) : Group := BitVec.ofNat 7 (t >>> (7 * i))

/-- The `n` lowest groups of a number as encoded bytes, least significant first, the continuation bit set on all but the
last: the `for` loop of 40_encode R94. -/
def emitGroups (n t : Nat) : List Byte :=
  (List.range n).map fun i => encodedByte (decide (i + 1 < n)) (group t i)

/-- `U(s)`, the unsigned value of a sequence, a number of `7n` bits (30_encoding R62): the first byte is the least
significant group. -/
def unsignedValue : List Byte → Nat
  | [] => 0
  | b :: s => (payload b).toNat + 2 ^ 7 * unsignedValue s

/-- The sign bit of an encoded form, bit 6 of its last byte (30_encoding R63). -/
def formSign (s : List Byte) : Bool :=
  match s.getLast? with
  | some b => signBit b
  | none => false

/-- `S(s)`, the signed value of a sequence (30_encoding R63). -/
def signedValue (s : List Byte) : Int :=
  if formSign s then (unsignedValue s : Int) - 2 ^ (7 * s.length) else unsignedValue s

/-- `bitlen(x)`: the least `k` with `x < 2^k` (00_scope R10). -/
def bitlen (x : Nat) : Nat := if x = 0 then 0 else x.log2 + 1

/-- `(~x) & (2^N - 1)`: the `N`-bit complement (00_scope R10). -/
def maskedNot (N x : Nat) : Nat := 2 ^ N - 1 - x % 2 ^ N

/-- `trunc_64(x)`, defined for every integer (00_scope R10). -/
def trunc64 (x : Int) : Word := BitVec.ofInt 64 x

/-- `as_signed64`: the two's-complement reading of 64 bits (00_scope R10, 42_laws R131). -/
def asSigned64 (v : Word) : Int := v.toInt

end Sys2Proof.Machine
end

