-- ==== Sys2Proof/Machine/Flags.lean ====
section
/-! DEFINITION. The status codes and which fields a response carries with each (10_state R22, R25; 60_exceptions R151,
R152). The CORE has no other flag. -/

namespace Sys2Proof.Machine

/-- `rsp.status = 0`: the operation completed (60_exceptions R152). -/
def statusOk : BitVec 2 := 0

/-- `rsp.status = 1`: LengthOverflow (60_exceptions R151). -/
def statusLengthOverflow : BitVec 2 := 1

/-- `rsp.status = 2`: set aside for NotImplemented and never produced (60_exceptions R152). -/
def statusNotImplemented : BitVec 2 := 2

/-- The response that carries a result: status and exactly the fields the operation writes (10_state R22; 40_encode R93,
R100; 41_decode R122). A request outside the domain has none. -/
def responseOf : Result → Option Response
  | .encoded seq => some { status := statusOk, val := none, seq := some seq }
  | .decoded val => some { status := statusOk, val := some val, seq := none }
  | .lengthOverflow => some { status := statusLengthOverflow, val := none, seq := none }
  | .outsideDomain => none

end Sys2Proof.Machine
end

