-- ==== Sys2Proof/Machine/Ops.lean ====
section
/-! DEFINITION. The named operations over the machine state: taking a request, giving a response. Reporting
LengthOverflow is the CORE's only exception: it goes out as a response, saves and changes nothing (60_exceptions R155),
and there is nothing to return from (R156). -/

namespace Sys2Proof.Machine

/-- Give the response of a transaction: the one thing an operation changes. -/
def State.respond (s : State) (r : Response) : State :=
  { s with rsp := some r }

/-- End a transaction with the result an operation came to. A request outside the domain is refused (41_decode R120). -/
def State.answer (s : State) (res : Result) : Host.Outcome State Fault Refusal :=
  match responseOf res with
  | some r => .next (s.respond r)
  | none => .refused .emptySequence

/-- The request the machine takes next, and the state with it taken: the first outstanding one. Which one is taken can
make no difference to any response (20_memory R49). -/
def State.takeRequest (s : State) : Option (Request × State) :=
  match s.pending with
  | [] => none
  | r :: rest => some (r, { s with pending := rest })

/-- What a step does when no transaction is outstanding: nothing. DESIGN CHOICE (log entry 3, safe). -/
def State.idle (s : State) : State := s

/-- A host presents a request that the machine takes next. -/
def State.present (s : State) (r : Request) : State :=
  { s with pending := r :: s.pending }

end Sys2Proof.Machine
end

