-- ==== Sys2Proof/Machine/Decoders.lean ====
section
/-! DEFINITION. The two decode operations, DECU and DECS (41_decode R110 to R123), as the pseudocode of R110 and R115 gives
them. Bit 7 of every byte is ignored (R113, log entry 10). -/

namespace Sys2Proof.Machine

/-- The checks both decodes make, in their order (60_exceptions R154): the length check on the length alone (41_decode
R111), then the empty sequence (R120), and only then the value. -/
def checkLength (cfg : Config) (s : List Byte) (v : Word) : Result :=
  if cfg.maxlen < s.length then .lengthOverflow
  else if s.isEmpty then .outsideDomain
  else .decoded v

/-- The accumulation of 41_decode R110, last byte first, in a 64-bit register: bits shifted past bit 63 are lost
(42_laws R132, 41_decode R112, log entry 11). -/
def accumulate : List Byte → Word
  | [] => 0
  | b :: s => (accumulate s <<< 7) ||| (payload b).setWidth 64

/-- The value DECS computes (41_decode R115), on unbounded integers and then brought to 64 bits: `U(s)` when the sign bit
is clear, else complement, mask to `7n` bits, add 1 and negate (R117). Ten bytes: log entry 11. -/
def signExtended (s : List Byte) : Word :=
  trunc64 (if formSign s then -((maskedNot (7 * s.length) (unsignedValue s) + 1 : Nat) : Int)
    else (unsignedValue s : Int))

/-- DECU as a function of its operand (41_decode R110). -/
def decodeUnsigned (cfg : Config) (s : List Byte) : Result :=
  checkLength cfg s (accumulate s)

/-- DECS as a function of its operand (41_decode R115). -/
def decodeSigned (cfg : Config) (s : List Byte) : Result :=
  checkLength cfg s (signExtended s)

/-- DECU, unsigned decode (41_decode R110 to R114, R120 to R122). -/
def execDecu (seq : List Byte) (s : State) : Host.Outcome State Fault Refusal :=
  s.answer (decodeUnsigned Config.core seq)

/-- DECS, signed decode (41_decode R115 to R122). -/
def execDecs (seq : List Byte) (s : State) : Host.Outcome State Fault Refusal :=
  s.answer (decodeSigned Config.core seq)

end Sys2Proof.Machine
end

