-- ==== Sys2Proof/Machine/Encoders.lean ====
section
/-! DEFINITION. The two encode operations, ENCU and ENCS (40_encode R90 to R100), as the pseudocode of R90 and R94 gives
them. Neither reads the state nor can fail. -/

namespace Sys2Proof.Machine

/-- The `while` loop of 40_encode R90 on a 64-bit register, shifting logically (42_laws R132); the fuel is the bound on
iterations of 42_laws R142. -/
def encuLoop : Nat → Word → List Byte
  | 0, _ => []
  | fuel + 1, v =>
    if v = 0 then []
    else encodedByte (decide (v >>> 7 ≠ 0)) (v.extractLsb' 0 7) :: encuLoop fuel (v >>> 7)

/-- ENCU as a function of its operand (40_encode R90): the zero special case (R91), else the loop. -/
def encodeUnsigned (v : Word) : List Byte :=
  if v = 0 then [0x00#8] else encuLoop Config.maxGroups v

/-- The padding step of ENCS on a nonnegative value (40_encode R94, R95): when the last byte reads as negative it is no
longer the last, and a zero group follows it. -/
def padSign (spad : Bool) (s : List Byte) : List Byte :=
  match s.getLast? with
  | some b => if spad && signBit b then s.dropLast ++ [setContinuation b, 0x00#8] else s
  | none => s

/-- The width `N` of 40_encode R96: the next multiple of 7 strictly greater than the bit-length of the magnitude
(42_laws R133; kept as the formula stands, decision D19, log entry 12). -/
def signedWidth (m : Nat) : Nat := 7 * (bitlen m / 7 + 1)

/-- The negative branch of ENCS (40_encode R96) for the magnitude `m`, on unbounded integers (R98): the `N`-bit pattern by
complement and add 1, then its `N/7` groups. -/
def encodeNegative (m : Nat) : List Byte :=
  emitGroups (signedWidth m / 7) (maskedNot (signedWidth m) m + 1)

/-- ENCS as a function of its operand (40_encode R94). -/
def encodeSigned (cfg : Config) (v : Word) : List Byte :=
  if 0 ≤ asSigned64 v then padSign cfg.spad (encodeUnsigned v)
  else encodeNegative (-asSigned64 v).toNat

/-- ENCU, unsigned encode (40_encode R90 to R93). -/
def execEncu (v : Word) (s : State) : Host.Outcome State Fault Refusal :=
  s.answer (.encoded (encodeUnsigned v))

/-- ENCS, signed encode (40_encode R94 to R100). -/
def execEncs (v : Word) (s : State) : Host.Outcome State Fault Refusal :=
  s.answer (.encoded (encodeSigned Config.core v))

end Sys2Proof.Machine
end

