-- ==== Sys2Proof/Machine/Dispatch.lean ====
section
/-! DEFINITION. One arm per operation (30_encoding R69). -/

namespace Sys2Proof.Machine

/-- The CORE on one operation: the `exec` of 10_state R20. -/
def exec (i : Instr) (s : State) : Host.Outcome State Fault Refusal :=
  match i with
  | .encu v => Sys2Proof.Machine.execEncu v s
  | .decu seq => Sys2Proof.Machine.execDecu seq s
  | .encs v => Sys2Proof.Machine.execEncs v s
  | .decs seq => Sys2Proof.Machine.execDecs seq s

end Sys2Proof.Machine
end

