-- ==== Sys2Proof/Machine/Step.lean ====
section
/-! DEFINITION. One step: one whole transaction (20_memory R46), or nothing when none is outstanding. -/

namespace Sys2Proof.Machine

/-- Take the next request and run the operation it asks for. -/
def step (s : State) : Host.Outcome State Fault Refusal :=
  match s.takeRequest with
  | none => .next s.idle
  | some (r, s') => exec (decode r) s'

/-- The state in which a host has presented the request with the select `w` and an operand of zeros, so that the next step
runs it (log entry 4). A word that is no select presents nothing. -/
def State.withFetchWord (s : State) (nbits w : Nat) : State :=
  match selectOfWord nbits w with
  | .ok op => s.present (requestOfSelect op)
  | .error _ => s

end Sys2Proof.Machine
end

