-- ==== Sys2Proof/Safety.lean ====
section
/-! DEFINITION. The terms claims are stated in: responses spelled out field by field, what it means that an operation
answers, properties of encoded forms (30_encoding R65 to R67), legal responses and safe states. Nothing here is called by
the machine. -/

namespace Sys2Proof.Machine

/-- The response that carries an encoded form: status 0, no value (10_state R22). -/
def encodedOk (q : List Byte) : Response := { status := 0#2, val := none, seq := some q }

/-- The response that carries a decoded value: status 0, no sequence (10_state R22). -/
def decodedOk (v : Word) : Response := { status := 0#2, val := some v, seq := none }

/-- The LengthOverflow response: status 1 and nothing else (10_state R22, 60_exceptions R155). -/
def overflowResponse : Response := { status := 1#2, val := none, seq := none }

/-- In every state the operation completes with this response and changes nothing else. -/
def Answers (i : Instr) (a : Response) : Prop :=
  ∀ s : State, exec i s = .next { s with rsp := some a }

/-- In every state the operation completes with the encoded form `q` and changes nothing else. -/
def Encodes (i : Instr) (q : List Byte) : Prop :=
  ∀ s : State, exec i s = .next { s with rsp := some (encodedOk q) }

/-- In every state the operation completes with the value `v` and changes nothing else. -/
def Decodes (i : Instr) (v : Word) : Prop :=
  ∀ s : State, exec i s = .next { s with rsp := some (decodedOk v) }

/-- In every state the operation reports LengthOverflow and changes nothing else. -/
def Overflows (i : Instr) : Prop :=
  ∀ s : State, exec i s = .next { s with rsp := some overflowResponse }

/-- In every state the request is refused as outside the interface's domain. -/
def Refuses (i : Instr) : Prop :=
  ∀ s : State, exec i s = .refused .emptySequence

/-- A well-formed chain (30_encoding R66): at least one byte, and bit 7 set on exactly the bytes that are not the last. -/
abbrev ChainWellFormed (s : List Byte) : Prop :=
  s ≠ [] ∧ ∀ (i : Nat) (h : i < s.length), continuation s[i] = decide (i + 1 < s.length)

/-- A minimal unsigned form (30_encoding R65): one byte, or a last group that is not all zero. -/
def minimalUnsigned (s : List Byte) : Bool :=
  match s.getLast? with
  | some b => s.length == 1 || payload b != 0
  | none => false

/-- A droppable last group of a signed form (30_encoding R65): zeros that repeat a clear sign, or ones that repeat a set
sign. -/
def droppableGroup (s : List Byte) : Bool :=
  match s.reverse with
  | last :: prev :: _ =>
    (payload last == 0x00#7 && !signBit prev) || (payload last == 0x7F#7 && signBit prev)
  | _ => false

/-- A minimal signed form (30_encoding R65). -/
def minimalSigned (s : List Byte) : Bool := !s.isEmpty && !droppableGroup s

/-- The convention by which a host finds the end of a form in its stream (30_encoding R67): the form ends at the first byte
with bit 7 clear. The host's work, not an operation of the CORE (00_scope R4). -/
def cutForm : List Byte → Option (List Byte × List Byte)
  | [] => none
  | b :: s =>
    if continuation b then (cutForm s).map fun fr => (b :: fr.1, fr.2)
    else some ([b], s)

/-- A response the CORE can give (10_state R22, 60_exceptions R151, R152): a value alone, a form of 1 to `OUTCAP` bytes
with a well-formed chain alone, or LengthOverflow alone. -/
def Response.Legal (r : Response) : Prop :=
  (∃ v, r = decodedOk v) ∨
  (∃ q, r = encodedOk q ∧ 1 ≤ q.length ∧ q.length ≤ 10 ∧ ChainWellFormed q) ∨
  r = overflowResponse

/-- The invariant of the machine: the response it holds, if any, is a legal one. -/
def State.Inv (s : State) : Prop :=
  ∀ r, s.rsp = some r → r.Legal

/-- The host has kept its one duty towards the interface (70_reset R183(a)): every outstanding request lies in the domain. -/
def State.InDomain (s : State) : Prop :=
  ∀ r ∈ s.pending, (decode r).wf = true

end Sys2Proof.Machine
end

