-- ==== Sys2Proof/Certificates/Slice0/Obligations.lean ====
section
/-! DEFINITION. The statements for the provers, each from the rules of spec/ its docstring cites. "Encodes", "Decodes",
"Overflows", "Refuses" and "Answers" (Safety.lean) say what `exec` gives from EVERY state, with every other field of the
state unchanged; so they are completion and frame at once. -/

open Sys2Proof Sys2Proof.Machine

/-! ### The interface, the select and the step -/

/-- 10_state R30, 70_reset R180: after reset no response is held, and the first transaction answers as any other. How
a request is presented is the model's choice (log entry 1). -/
def Obligations.FirstTransactionAfterResetAnswersAsAnyOther : Prop :=
  State.reset.rsp = none ∧
  ∀ (r : Request) (s : State),
    (∃ a : Response,
      step (State.reset.present r) = .next { State.reset with rsp := some a } ∧
      step (s.present r) = .next { s with rsp := some a }) ∨
    (step (State.reset.present r) = .refused .emptySequence ∧ step (s.present r) = .refused .emptySequence)

/-- A step takes the first outstanding request and runs the operation it decodes to; with none outstanding it changes
nothing (that is the model's choice, log entries 1 and 3). -/
def Obligations.StepRunsTheDecodedRequest : Prop :=
  (∀ (s : State) (r : Request) (rest : List Request), s.pending = r :: rest →
    step s = exec (decode r) { s with pending := rest }) ∧
  (∀ s : State, s.pending = [] → step s = .next s)

/-- 30_encoding R68 (decision D5): bit 1 of the select says signed, bit 0 says decode; an encode takes `req.val`, a
decode `req.seq`. -/
def Obligations.SelectBitsNameTheOperation : Prop :=
  ∀ (op : BitVec 2) (v : Word) (q : List Byte),
    (decode ⟨op, v, q⟩).isSigned = op.getLsbD 1 ∧
    (decode ⟨op, v, q⟩).isDecode = op.getLsbD 0 ∧
    (op.getLsbD 0 = false → decode ⟨op, v, q⟩ = .encu v ∨ decode ⟨op, v, q⟩ = .encs v) ∧
    (op.getLsbD 0 = true → decode ⟨op, v, q⟩ = .decu q ∨ decode ⟨op, v, q⟩ = .decs q)

/-- 30_encoding R69, R71: every select matches exactly one row of the table, and decodes to that row's operation. -/
def Obligations.EverySelectMatchesExactlyOneTableRow : Prop :=
  ∀ r : Request, (opcodeTable.filter fun row => row.accepts r.op).map TableRow.mnemonic = [(decode r).mnemonic]

/-- Words of the table written out from 30_encoding R69, with the operand of zeros the model gives them; that a word
above the two select bits is rejected is the model's choice (log entry 4). -/
def Obligations.TableWordsDecode : Prop :=
  decodeTableWord 8 0b00 = some (.encu 0) ∧ decodeTableWord 8 0b01 = some (.decu [0x00#8]) ∧
  decodeTableWord 8 0b10 = some (.encs 0) ∧ decodeTableWord 8 0b11 = some (.decs [0x00#8]) ∧
  decodeTableWord 8 0b100 = none

/-- Encoding an operation as a request and decoding it gives it back with its whole operand, and the select of a
decoded request is recovered. What the encoder puts into the unused field is the model's choice (log entry 9). -/
def Obligations.RequestRoundTrip : Prop :=
  (∀ i : Instr, decode (encode i) = i) ∧ (∀ r : Request, (encode (decode r)).op = r.op)

/-- 10_state R21 (decision D17): a field an operation does not use has no effect on the response. How a request is
presented is the model's choice (log entry 1). -/
def Obligations.UnusedRequestFieldsHaveNoEffect : Prop :=
  ∀ (v v' : Word) (q q' : List Byte) (s : State),
    step (s.present ⟨0b00#2, v, q⟩) = step (s.present ⟨0b00#2, v, q'⟩) ∧
    step (s.present ⟨0b01#2, v, q⟩) = step (s.present ⟨0b01#2, v', q⟩) ∧
    step (s.present ⟨0b10#2, v, q⟩) = step (s.present ⟨0b10#2, v, q'⟩) ∧
    step (s.present ⟨0b11#2, v, q⟩) = step (s.present ⟨0b11#2, v', q⟩)

/-- 10_state R20, R29, 20_memory R46: the frame of all four operations (ENCU, DECU, ENCS, DECS) and of a step. An
operation leaves the outstanding requests alone and a step removes exactly the one it takes; the CORE has no register,
flag or memory that could change. -/
def Obligations.OnlyTheResponseChanges : Prop :=
  (∀ (i : Instr) (s t : State), exec i s = .next t → t.pending = s.pending) ∧
  (∀ (s t : State) (r : Request) (rest : List Request), s.pending = r :: rest → step s = .next t → t.pending = rest)

/-! ### The encoded byte and the values of a sequence -/

/-- 30_encoding R60: bit 7 is the continuation bit, bits 6 to 0 the payload, bit 6 the sign bit. -/
def Obligations.EncodedByteFields : Prop :=
  (∀ b : Byte, (continuation b = true ↔ 0x80 ≤ b.toNat) ∧ (payload b).toNat = b.toNat % 0x80 ∧
    (signBit b = true ↔ 0x40 ≤ b.toNat % 0x80)) ∧
  (∀ (more : Bool) (g : Group), (encodedByte more g).toNat = (if more then 0x80 else 0) + g.toNat)

/-- 30_encoding R62: `U(s)` is the weighted sum of the payloads, a number of `7n` bits, and what the accumulation from
last to first computes when no bit is lost; DECU's 64-bit accumulator holds its low 64 bits. -/
def Obligations.UnsignedValueIsTheWeightedSum : Prop :=
  ∀ s : List Byte,
    unsignedValue s = ∑ i : Fin s.length, (payload s[i]).toNat * 2 ^ (7 * (i : Nat)) ∧
    unsignedValue s < 2 ^ (7 * s.length) ∧
    unsignedValue s = s.foldr (fun b acc => (acc <<< 7) ||| (payload b).toNat) 0 ∧
    accumulate s = BitVec.ofNat 64 (unsignedValue s)

/-- 30_encoding R63: the sign is bit `7n-1` of `U(s)`, `S(s)` is `U(s)` sign-extended from it, and on the negative
branch the bit-length of `U(s)` is `7n` (which the spec marks as derived from R62) and the source's complement, mask,
add 1 and negate gives the same number; what DECS computes is `S(s)` brought to 64 bits. -/
def Obligations.SignedValueIsSignExtension : Prop :=
  ∀ s : List Byte, s ≠ [] →
    formSign s = (unsignedValue s).testBit (7 * s.length - 1) ∧
    signedValue s = (BitVec.ofNat (7 * s.length) (unsignedValue s)).toInt ∧
    (formSign s = false → signedValue s = unsignedValue s) ∧
    (formSign s = true → signedValue s = (unsignedValue s : Int) - 2 ^ (7 * s.length) ∧
      bitlen (unsignedValue s) = 7 * s.length ∧
      signedValue s = -((maskedNot (bitlen (unsignedValue s)) (unsignedValue s) + 1 : Nat) : Int)) ∧
    signExtended s = trunc64 (signedValue s)

/-- 42_laws R133: the laws of bit-length, and the width of ENCS as the least multiple of 7 strictly greater than it;
ENCS applies it to magnitudes of 1 to 64 bits only. -/
def Obligations.BitLengthLaws : Prop :=
  bitlen 0 = 0 ∧
  (∀ x : Nat, 1 ≤ x → 2 ^ (bitlen x - 1) ≤ x ∧ x < 2 ^ bitlen x) ∧
  (∀ k : Nat, bitlen (2 ^ k) = k + 1 ∧ bitlen (2 ^ k - 1) = k) ∧
  (∀ m : Nat, 7 ∣ signedWidth m ∧ bitlen m < signedWidth m ∧
    ∀ w : Nat, 7 ∣ w → bitlen m < w → signedWidth m ≤ w) ∧
  (∀ v : Word, asSigned64 v < 0 → 1 ≤ bitlen (-asSigned64 v).toNat ∧ bitlen (-asSigned64 v).toNat ≤ 64)

/-- 42_laws R134: complement within `N` bits plus 1 is `2^N - m`; the magnitude of `-2^63` is `2^63`, not a wrapped
negation; the magnitude DECS negates lies in `1 .. 2^(7n-1)`, at most `2^62` for up to nine bytes. -/
def Obligations.ComplementAndNegation : Prop :=
  (∀ N m : Nat, 1 ≤ m → m < 2 ^ N → maskedNot N m + 1 = 2 ^ N - m) ∧
  (-asSigned64 0x8000000000000000#64).toNat = 2 ^ 63 ∧
  (∀ s : List Byte, formSign s = true →
    1 ≤ maskedNot (7 * s.length) (unsignedValue s) + 1 ∧
    maskedNot (7 * s.length) (unsignedValue s) + 1 ≤ 2 ^ (7 * s.length - 1) ∧
    (s.length ≤ 9 → maskedNot (7 * s.length) (unsignedValue s) + 1 ≤ 2 ^ 62))

/-- 42_laws R131: the signed reading of a 64-bit pattern, and the pattern of a signed value. -/
def Obligations.TwosComplementReading : Prop :=
  (∀ p : Word, asSigned64 p = if p.toNat < 2 ^ 63 then (p.toNat : Int) else (p.toNat : Int) - 2 ^ 64) ∧
  (∀ p : Word, trunc64 (asSigned64 p) = p) ∧
  (∀ v : Int, -2 ^ 63 ≤ v → v < 2 ^ 63 → asSigned64 (trunc64 v) = v ∧ ((trunc64 v).toNat : Int) = v % 2 ^ 64)

/-! ### The encode operations -/

/-- 40_encode R90: ENCU emits the low 7 bits, with the continuation bit set while the rest is nonzero, and goes on
with the rest shifted right by 7. -/
def Obligations.EncuPeelsSevenBitsAtATime : Prop :=
  ∀ v : Word,
    (v.toNat < 128 → Encodes (.encu v) [v.setWidth 8]) ∧
    (128 ≤ v.toNat → ∃ q, Encodes (.encu (v >>> 7)) q ∧ Encodes (.encu v) ((v.setWidth 8 ||| 0x80#8) :: q))

/-- 40_encode R91: ENCU of zero is exactly one zero byte, not an empty sequence. -/
def Obligations.EncuOfZeroIsOneZeroByte : Prop :=
  Encodes (.encu 0) [0x00#8]

/-- 40_encode R92 (a) to (f): the properties of every ENCU result (the spec marks the rule as derived from R90). -/
def Obligations.EncuResultProperties : Prop :=
  ∀ v : Word, ∃ q : List Byte, Encodes (.encu v) q ∧
    q.length = max 1 ((bitlen v.toNat + 6) / 7) ∧ 1 ≤ q.length ∧ q.length ≤ 10 ∧
    (∀ (i : Nat) (h : i < q.length),
      q[i] = (if i + 1 < q.length then 0x80#8 else 0x00#8) ||| BitVec.ofNat 8 (v.toNat / 2 ^ (7 * i) % 2 ^ 7)) ∧
    ChainWellFormed q ∧
    minimalUnsigned q = true ∧ (v ≠ 0 → q.getLast? ≠ some 0x00#8) ∧
    unsignedValue q = v.toNat ∧
    (q.length = 10 → q.getLast? = some 0x01#8)

/-- 40_encode R93, R100: neither encode ever fails, and its answer depends on `req.val` alone: status 0, a sequence of
1 to 10 bytes, no value. -/
def Obligations.EncodesNeverFail : Prop :=
  ∀ v : Word,
    (∃ q : List Byte, 1 ≤ q.length ∧ q.length ≤ 10 ∧ ∀ (seq : List Byte) (s : State),
      exec (decode ⟨0b00#2, v, seq⟩) s = .next { s with rsp := some { status := 0#2, val := none, seq := some q } }) ∧
    (∃ q : List Byte, 1 ≤ q.length ∧ q.length ≤ 10 ∧ ∀ (seq : List Byte) (s : State),
      exec (decode ⟨0b10#2, v, seq⟩) s = .next { s with rsp := some { status := 0#2, val := none, seq := some q } })

/-- 40_encode R95 (decision D2, log entry 7): ENCS of a nonnegative value is ENCU of it, plus a zero group when bit 6
of the last byte is set, which is so exactly when `2^(7k-1) ≤ v < 2^(7k)` for some `k = 1..9`. With `SPAD = 0` it is
ENCU alone, and decodes to `v - 2^(7k)` for exactly those values. -/
def Obligations.EncsOfNonnegativeDelegatesAndPads : Prop :=
  ∀ v : Word, 0 ≤ asSigned64 v → ∃ (q : List Byte) (b : Byte), Encodes (.encu v) (q ++ [b]) ∧
    (b.getLsbD 6 = true → Encodes (.encs v) (q ++ [b ||| 0x80#8, 0x00#8])) ∧
    (b.getLsbD 6 = false → Encodes (.encs v) (q ++ [b])) ∧
    (b.getLsbD 6 = true ↔ ∃ k : Nat, 1 ≤ k ∧ k ≤ 9 ∧ 2 ^ (7 * k - 1) ≤ v.toNat ∧ v.toNat < 2 ^ (7 * k)) ∧
    (b.getLsbD 6 = true ↔ bitlen v.toNat % 7 = 0 ∧ 0 < v.toNat) ∧
    encodeSigned { Config.core with spad := false } v = q ++ [b] ∧
    (b.getLsbD 6 = false → Decodes (.decs (q ++ [b])) v) ∧
    (∀ k : Nat, 1 ≤ k → k ≤ 9 → 2 ^ (7 * k - 1) ≤ v.toNat → v.toNat < 2 ^ (7 * k) →
      Decodes (.decs (q ++ [b])) (trunc64 ((v.toNat : Int) - 2 ^ (7 * k))))

/-- 40_encode R96: ENCS of a negative value emits the `N/7` groups of the `N`-bit pattern `t = 2^N - m`, with the
continuation bit on all but the last. That `2^(N-1) < t < 2^N`, that the sign bit is set and that the signed value of
the form is `v` the spec marks as derived from 30_encoding R63. -/
def Obligations.EncsOfNegativeEmitsTheComplement : Prop :=
  ∀ (v : Word) (m N t : Nat), asSigned64 v < 0 → (m : Int) = -asSigned64 v → N = 7 * (bitlen m / 7 + 1) →
    t = 2 ^ N - m →
    1 ≤ m ∧ m ≤ 2 ^ 63 ∧ maskedNot N m + 1 = t ∧ 2 ^ (N - 1) < t ∧ t < 2 ^ N ∧
    ∃ q : List Byte, Encodes (.encs v) q ∧ q.length = N / 7 ∧
      (∀ (i : Nat) (h : i < q.length),
        q[i] = (if i + 1 < q.length then 0x80#8 else 0x00#8) ||| BitVec.ofNat 8 (t / 2 ^ (7 * i) % 2 ^ 7)) ∧
      formSign q = true ∧ signedValue q = asSigned64 v

/-- 40_encode R97 (a) to (f): the properties of every ENCS result of this hardware (`SPAD = 1`); the spec marks the
rule as derived from R95 and R96. -/
def Obligations.EncsResultProperties : Prop :=
  ∀ v : Word, ∃ q : List Byte, Encodes (.encs v) q ∧
    q.length = bitlen (asSigned64 v).natAbs / 7 + 1 ∧ 1 ≤ q.length ∧ q.length ≤ 10 ∧
    ChainWellFormed q ∧
    (formSign q = true ↔ asSigned64 v < 0) ∧
    signedValue q = asSigned64 v ∧
    (∀ (i : Nat) (h : i < q.length) (j : Nat), j < 7 →
      q[i].getLsbD j = if 7 * i + j < 64 then v.getLsbD (7 * i + j) else decide (asSigned64 v < 0)) ∧
    (minimalSigned q = false ↔ ∃ k : Nat, 1 ≤ k ∧ k ≤ 9 ∧ asSigned64 v = -2 ^ (7 * k - 1))

/-- 40_encode R98: ENCS of `-2^63`, and the widths above 64: exactly the values up to `-2^62` have a 70-bit pattern
among the negative ones. -/
def Obligations.EncsOfMostNegativeAndTheSeventyBitWidth : Prop :=
  bitlen (2 ^ 63) = 64 ∧ signedWidth (2 ^ 63) = 70 ∧ maskedNot 70 (2 ^ 63) + 1 = 0x7F * 2 ^ 63 ∧
  Encodes (.encs 0x8000000000000000#64)
    [0x80#8, 0x80#8, 0x80#8, 0x80#8, 0x80#8, 0x80#8, 0x80#8, 0x80#8, 0x80#8, 0x7F#8] ∧
  (∀ v : Word, asSigned64 v < 0 → (signedWidth (-asSigned64 v).toNat = 70 ↔ asSigned64 v ≤ -2 ^ 62)) ∧
  (∀ v : Word, asSigned64 v ≤ -2 ^ 62 → ∃ q : List Byte, Encodes (.encs v) q ∧ q.length = 10 ∧
    ∀ (i : Nat) (h : i < q.length) (j : Nat), j < 7 →
      q[i].getLsbD j = if 7 * i + j < 64 then v.getLsbD (7 * i + j) else true)

/-- 40_encode R99 (decision D19, log entry 12): ENCS is not minimal at the nine values `-2^(7k-1)`; the shorter form
decodes to the same value; at every other negative value the form is minimal. -/
def Obligations.EncsIsNotMinimalAtNineValues : Prop :=
  (∀ k : Nat, 1 ≤ k → k ≤ 9 →
    Encodes (.encs (trunc64 (-2 ^ (7 * k - 1)))) (List.replicate (k - 1) 0x80#8 ++ [0xC0#8, 0x7F#8]) ∧
    minimalSigned (List.replicate (k - 1) 0x80#8 ++ [0xC0#8, 0x7F#8]) = false ∧
    Decodes (.decs (List.replicate (k - 1) 0x80#8 ++ [0xC0#8, 0x7F#8])) (trunc64 (-2 ^ (7 * k - 1))) ∧
    Decodes (.decs (List.replicate (k - 1) 0x80#8 ++ [0x40#8])) (trunc64 (-2 ^ (7 * k - 1)))) ∧
  (∀ v : Word, asSigned64 v < 0 → (∀ k : Nat, 1 ≤ k → k ≤ 9 → asSigned64 v ≠ -2 ^ (7 * k - 1)) →
    ∃ q : List Byte, Encodes (.encs v) q ∧ minimalSigned q = true)

/-- 30_encoding R64: the lengths the encoders give, as formulas and as the two tables; with `SPAD = 0` a nonnegative
value has its unsigned length. The ENCS length formula, and with it the signed table, the spec marks as derived from
40_encode R95 and R96. -/
def Obligations.LengthsOfEncodedForms : Prop :=
  ∀ v : Word, ∃ q p : List Byte, Encodes (.encu v) q ∧ Encodes (.encs v) p ∧
    1 ≤ q.length ∧ q.length ≤ 10 ∧ 1 ≤ p.length ∧ p.length ≤ 10 ∧
    q.length = max 1 ((bitlen v.toNat + 6) / 7) ∧
    p.length = bitlen (asSigned64 v).natAbs / 7 + 1 ∧
    (q.length = 1 ↔ v.toNat ≤ 127) ∧
    (∀ k : Nat, 2 ≤ k → k ≤ 10 → (q.length = k ↔ 2 ^ (7 * (k - 1)) ≤ v.toNat ∧ v.toNat < 2 ^ (7 * k))) ∧
    (p.length = 1 ↔ (asSigned64 v).natAbs ≤ 63) ∧
    (∀ k : Nat, 2 ≤ k → k ≤ 9 → (p.length = k ↔
      2 ^ (7 * k - 8) ≤ (asSigned64 v).natAbs ∧ (asSigned64 v).natAbs ≤ 2 ^ (7 * k - 1) - 1)) ∧
    (p.length = 10 ↔ 2 ^ 62 ≤ (asSigned64 v).natAbs) ∧
    (0 ≤ asSigned64 v → (encodeSigned { Config.core with spad := false } v).length = q.length)

/-- 42_laws R142: the bound of 10 iterations loses nothing: ENCU's loop with any larger bound emits the same bytes. -/
def Obligations.TenIterationsSuffice : Prop :=
  ∀ (v : Word) (fuel : Nat), 10 ≤ fuel → encuLoop fuel v = encuLoop 10 v

/-! ### The decode operations -/

/-- 41_decode R110: DECU: the length check, the refusal of the empty sequence, and the value `trunc_64(U(s))`, exact
for up to nine bytes and for ten when the tenth adds no bit above bit 63. -/
def Obligations.DecuGivesTheTruncatedUnsignedValue : Prop :=
  ∀ q : List Byte,
    (10 < q.length → Overflows (.decu q)) ∧
    (q = [] → Refuses (.decu q)) ∧
    (1 ≤ q.length → q.length ≤ 10 → Decodes (.decu q) (BitVec.ofNat 64 (unsignedValue q))) ∧
    (1 ≤ q.length → q.length ≤ 9 → ∃ v : Word, Decodes (.decu q) v ∧ v.toNat = unsignedValue q) ∧
    (∀ h : q.length = 10, (∀ j : Nat, 1 ≤ j → j ≤ 6 → q[9].getLsbD j = false) →
      ∃ v : Word, Decodes (.decu q) v ∧ v.toNat = unsignedValue q)

/-- 41_decode R111 (decision D1, log entry 6), 60_exceptions R154, R155: the length check comes first and looks at the
length alone; LengthOverflow is status 1 and nothing else; a legal length never raises it. With `MAXLEN = 10` every
encoder output is accepted; with 8 the nine- and ten-byte ones are not. -/
def Obligations.LengthCheck : Prop :=
  (∀ q : List Byte, 10 < q.length → Overflows (.decu q) ∧ Overflows (.decs q)) ∧
  (∀ q : List Byte, 1 ≤ q.length → q.length ≤ 10 → (∃ v, Decodes (.decu q) v) ∧ (∃ v, Decodes (.decs q) v)) ∧
  (∀ (v : Word) (i : Instr) (q : List Byte), i = .encu v ∨ i = .encs v → Encodes i q →
    (∃ w, Decodes (.decu q) w) ∧ (∃ w, Decodes (.decs q) w) ∧
    (9 ≤ q.length → decodeUnsigned { Config.core with maxlen := 8 } q = .lengthOverflow ∧
      decodeSigned { Config.core with maxlen := 8 } q = .lengthOverflow))

/-- 41_decode R112 (decision D8, log entry 11): of a tenth byte DECU keeps bit 0 alone, as bit 63. -/
def Obligations.DecuOfTenBytesDiscardsTheTopBits : Prop :=
  (∀ (q : List Byte) (b : Byte), q.length = 9 →
    Decodes (.decu (q ++ [b])) (BitVec.ofNat 64 (unsignedValue q + 2 ^ 63 * (b.toNat % 2)))) ∧
  Decodes (.decu (List.replicate 9 0xFF#8 ++ [0x7F#8])) 0xFFFFFFFFFFFFFFFF#64 ∧
  Decodes (.decu (List.replicate 9 0xFF#8 ++ [0x01#8])) 0xFFFFFFFFFFFFFFFF#64 ∧
  Decodes (.decu (List.replicate 9 0x80#8 ++ [0x02#8])) 0#64

/-- 41_decode R113 (decision D3, log entry 10): decode is permissive: sequences of the same length whose bytes agree
in bits 6 to 0 decode alike. -/
def Obligations.DecodeIgnoresContinuationBits : Prop :=
  (∀ (q q' : List Byte), q.map payload = q'.map payload → ∀ s : State,
    exec (.decu q) s = exec (.decu q') s ∧ exec (.decs q) s = exec (.decs q') s) ∧
  Decodes (.decu [0x01#8, 0x01#8]) 129 ∧ Decodes (.decu [0x81#8, 0x01#8]) 129 ∧
  Decodes (.decu [0x81#8, 0x81#8]) 129 ∧ Decodes (.decu [0x01#8, 0x81#8]) 129

/-- 41_decode R114 (marked derived from 30_encoding R62 and R63): redundant high-order groups change nothing but the
length. -/
def Obligations.NonMinimalFormsAreAccepted : Prop :=
  (∀ (q : List Byte) (b : Byte), q ≠ [] → q.length ≤ 9 →
    (payload b = 0x00#7 → ∃ v, Decodes (.decu q) v ∧ Decodes (.decu (q ++ [b])) v) ∧
    ((payload b = 0x00#7 ∧ formSign q = false) ∨ (payload b = 0x7F#7 ∧ formSign q = true) →
      ∃ v, Decodes (.decs q) v ∧ Decodes (.decs (q ++ [b])) v)) ∧
  Decodes (.decu [0x80#8, 0x00#8]) 0 ∧ Decodes (.decs [0xFF#8, 0x7F#8]) (trunc64 (-1)) ∧
  Decodes (.decs [0x40#8]) (trunc64 (-64)) ∧ Decodes (.decs [0xC0#8, 0x7F#8]) (trunc64 (-64))

/-- 41_decode R115: DECS: the length check, the refusal of the empty sequence, `S(s)` for up to nine bytes and
`trunc_64(U(s))` for ten. -/
def Obligations.DecsGivesTheSignedValue : Prop :=
  ∀ q : List Byte,
    (10 < q.length → Overflows (.decs q)) ∧
    (q = [] → Refuses (.decs q)) ∧
    (1 ≤ q.length → q.length ≤ 9 → ∃ v : Word, Decodes (.decs q) v ∧ asSigned64 v = signedValue q) ∧
    (q.length = 10 → Decodes (.decs q) (BitVec.ofNat 64 (unsignedValue q)))

/-- 41_decode R116: with the sign bit clear DECS is DECU of the same sequence; for up to nine bytes the value is exact
and nonnegative. -/
def Obligations.DecsWithSignClearIsDecu : Prop :=
  ∀ q : List Byte, formSign q = false →
    (∀ s : State, exec (.decs q) s = exec (.decu q) s) ∧
    (1 ≤ q.length → q.length ≤ 9 → unsignedValue q < 2 ^ (7 * q.length - 1) ∧
      ∃ v : Word, Decodes (.decs q) v ∧ asSigned64 v = unsignedValue q ∧ asSigned64 v = signedValue q)

/-- 41_decode R117: with the sign bit set the bit-length of `U(s)` is `7n` (which the spec marks as derived from
30_encoding R62, and on which the later clauses rest), the magnitude is `2^(7n) - U(s)`, and the result is its negation,
exact for up to nine bytes. -/
def Obligations.DecsWithSignSetNegatesTheComplement : Prop :=
  ∀ (q : List Byte) (L mag : Nat), formSign q = true → L = bitlen (unsignedValue q) →
    mag = maskedNot L (unsignedValue q) + 1 →
    L = 7 * q.length ∧ mag = 2 ^ L - unsignedValue q ∧ 1 ≤ mag ∧ mag ≤ 2 ^ (L - 1) ∧
    (-(mag : Int)) = signedValue q ∧ -2 ^ (7 * q.length - 1) ≤ signedValue q ∧ signedValue q ≤ -1 ∧
    (q.length ≤ 10 → Decodes (.decs q) (trunc64 (-(mag : Int)))) ∧
    (q.length ≤ 9 → asSigned64 (trunc64 (-(mag : Int))) = -(mag : Int))

/-- 41_decode R118 (marked derived from R116 and R117): DECS is one formula: the `7n`-bit number `U(s)` sign-extended
from its top bit and brought to 64 bits. -/
def Obligations.DecsIsOneSignExtension : Prop :=
  ∀ q : List Byte, 1 ≤ q.length → q.length ≤ 10 →
    Decodes (.decs q) ((BitVec.ofNat (7 * q.length) (unsignedValue q)).signExtend 64) ∧
    (q.length ≤ 9 → asSigned64 ((BitVec.ofNat (7 * q.length) (unsignedValue q)).signExtend 64) = signedValue q)

/-- 41_decode R119 (decision D9, log entry 11): DECS of ten bytes is the low 64 bits of the concatenation, whatever
the sign bit; bit 63 is bit 0 of the tenth byte and its other payload bits are discarded. It is exact for the ten-byte
outputs of ENCS, which end in `0x7F` or `0x00`. -/
def Obligations.DecsOfTenBytes : Prop :=
  (∀ (q : List Byte) (b : Byte), q.length = 9 →
    ∃ v : Word, Decodes (.decs (q ++ [b])) v ∧ v = BitVec.ofNat 64 (unsignedValue (q ++ [b])) ∧
      v.getLsbD 63 = b.getLsbD 0 ∧ ∀ c : Byte, c.getLsbD 0 = b.getLsbD 0 → Decodes (.decs (q ++ [c])) v) ∧
  (∀ (v : Word) (q : List Byte), Encodes (.encs v) q → q.length = 10 →
    Decodes (.decs q) v ∧ q.getLast? = some (if asSigned64 v < 0 then 0x7F#8 else 0x00#8)) ∧
  Decodes (.decs (List.replicate 9 0x80#8 ++ [0x7F#8])) (trunc64 (-2 ^ 63)) ∧
  Decodes (.decs (List.replicate 9 0xFF#8 ++ [0x00#8])) (trunc64 (2 ^ 63 - 1)) ∧
  Decodes (.decs (List.replicate 9 0x80#8 ++ [0x40#8])) 0 ∧
  Decodes (.decs (List.replicate 9 0x80#8 ++ [0x01#8])) (trunc64 (-2 ^ 63))

/-- 41_decode R120 (decision D7, log entry 8): the empty sequence is refused by both decodes, with no result. -/
def Obligations.EmptySequenceIsRefused : Prop :=
  Refuses (.decu []) ∧ Refuses (.decs [])

/-- An operation stops, and only with that refusal, exactly when its request lies outside the domain: no other
operand, state or form stops it, and nothing faults (42_laws R141, 41_decode R120). -/
def Obligations.OnlyTheEmptySequenceStops : Prop :=
  ∀ (i : Instr) (s : State),
    (i.wf = true ∧ ∃ a : Response, exec i s = .next { s with rsp := some a }) ∨
    (i.wf = false ∧ exec i s = .refused .emptySequence)

/-- 41_decode R121: the single zero byte decodes to 0 by the general rule. -/
def Obligations.SingleZeroByteDecodesToZero : Prop :=
  Decodes (.decu [0x00#8]) 0 ∧ Decodes (.decs [0x00#8]) 0

/-- 41_decode R122: what a decode writes: status 0 and a value, or status 1 alone, never a sequence; `req.val` never
matters. -/
def Obligations.DecodeWritesValueOrStatusAlone : Prop :=
  ∀ q : List Byte, q ≠ [] → ∀ op : BitVec 2, op = 0b01#2 ∨ op = 0b11#2 →
    ∃ a : Response, (∀ (v : Word) (s : State), exec (decode ⟨op, v, q⟩) s = .next { s with rsp := some a }) ∧
      a.seq = none ∧ (q.length ≤ 10 → a.status = 0#2 ∧ a.val.isSome = true) ∧
      (10 < q.length → a.status = 1#2 ∧ a.val = none)

/-- 41_decode R123 (marked derived from R111 and 30_encoding R64): under the source's bound, `MAXLEN = 8`: shorter
sequences decode as before, the encoder outputs accepted are exactly those of `v < 2^56` and of `|v| ≤ 2^55 - 1`, and
nine or more bytes raise LengthOverflow. -/
def Obligations.DecodeUnderTheSourceBound : Prop :=
  (∀ q : List Byte, q.length ≤ 8 →
    decodeUnsigned { Config.core with maxlen := 8 } q = decodeUnsigned Config.core q ∧
    decodeSigned { Config.core with maxlen := 8 } q = decodeSigned Config.core q) ∧
  (∀ q : List Byte, 9 ≤ q.length →
    decodeUnsigned { Config.core with maxlen := 8 } q = .lengthOverflow ∧
    decodeSigned { Config.core with maxlen := 8 } q = .lengthOverflow) ∧
  (∀ v : Word, decodeUnsigned { Config.core with maxlen := 8 } (encodeUnsigned v) =
    if v.toNat < 2 ^ 56 then .decoded v else .lengthOverflow) ∧
  (∀ v : Word, decodeSigned { Config.core with maxlen := 8 } (encodeSigned Config.core v) =
    if (asSigned64 v).natAbs ≤ 2 ^ 55 - 1 then .decoded v else .lengthOverflow)

/-! ### The laws of the codec -/

/-- 42_laws R136, the first round-trip law: decoding an encoded value gives the value back, for every unsigned and
every signed 64-bit value; under the source's bound, and without the padding, exactly the values the rule names
round-trip. -/
def Obligations.DecodeOfEncodeIsIdentity : Prop :=
  (∀ u : Word, ∃ q, Encodes (.encu u) q ∧ Decodes (.decu q) u) ∧
  (∀ i : Word, ∃ q, Encodes (.encs i) q ∧ Decodes (.decs q) i) ∧
  (∀ u : Word, decodeUnsigned { Config.core with maxlen := 8 } (encodeUnsigned u) = .decoded u ↔ u.toNat < 2 ^ 56) ∧
  (∀ i : Word, decodeSigned { Config.core with maxlen := 8 } (encodeSigned Config.core i) = .decoded i ↔
    (asSigned64 i).natAbs ≤ 2 ^ 55 - 1) ∧
  (∀ i : Word, decodeSigned Config.core (encodeSigned { Config.core with spad := false } i) = .decoded i ↔
    ¬ ∃ k : Nat, 1 ≤ k ∧ k ≤ 9 ∧ 2 ^ (7 * k - 1) ≤ asSigned64 i ∧ asSigned64 i < 2 ^ (7 * k))

/-- 42_laws R137 (a), (b), (c), the second round-trip law: encoding what a minimal form decodes to gives the form
back, except for the nine forms at which ENCS is not minimal; and so does every encoder output, which is clause (c) and
which the spec marks as derived from R136. -/
def Obligations.EncodeOfDecodeIsIdentityOnMinimalForms : Prop :=
  (∀ b : List Byte, ChainWellFormed b → b.length ≤ 10 → minimalUnsigned b = true →
    (b.length = 10 → b.getLast? = some 0x01#8) → ∃ v, Decodes (.decu b) v ∧ Encodes (.encu v) b) ∧
  (∀ b : List Byte, ChainWellFormed b → b.length ≤ 10 → minimalSigned b = true →
    (b.length = 10 → b.getLast? = some 0x00#8 ∨ b.getLast? = some 0x7F#8) →
    (∀ k : Nat, 1 ≤ k → k ≤ 9 → b ≠ List.replicate (k - 1) 0x80#8 ++ [0x40#8]) →
    ∃ v, Decodes (.decs b) v ∧ Encodes (.encs v) b) ∧
  (∀ k : Nat, 1 ≤ k → k ≤ 9 → ∃ v, Decodes (.decs (List.replicate (k - 1) 0x80#8 ++ [0x40#8])) v ∧
    Encodes (.encs v) (List.replicate (k - 1) 0x80#8 ++ [0xC0#8, 0x7F#8])) ∧
  (∀ (u : Word) (b : List Byte), Encodes (.encu u) b → ∃ v, Decodes (.decu b) v ∧ Encodes (.encu v) b) ∧
  (∀ (i : Word) (b : List Byte), Encodes (.encs i) b → ∃ v, Decodes (.decs b) v ∧ Encodes (.encs v) b)

/-- 42_laws R139: with `SPAD = 1` the last byte's bit 6 is the sign of the encoded value; with `SPAD = 0` it fails for
exactly the nonnegative values of 40_encode R95. -/
def Obligations.LastSignBitIsTheSign : Prop :=
  (∀ v : Word, ∃ (q : List Byte) (b : Byte), Encodes (.encs v) (q ++ [b]) ∧
    (b.getLsbD 6 = true ↔ asSigned64 v < 0)) ∧
  (∀ v : Word, ((formSign (encodeSigned { Config.core with spad := false } v) = true) ↔ asSigned64 v < 0) ↔
    ¬ ∃ k : Nat, 1 ≤ k ∧ k ≤ 9 ∧ 2 ^ (7 * k - 1) ≤ asSigned64 v ∧ asSigned64 v < 2 ^ (7 * k))

/-- 42_laws R140 (decision D19, log entry 12): every ENCU result is minimal, zero being one zero byte; an ENCS result is
minimal exactly when its value is none of the nine `-2^(7k-1)`; each of those nine carries one `0x7F` group that can be
dropped without changing the decoded value; dropping the zero byte that the padding appends does change it. -/
def Obligations.EncodingIsMinimalWithNineExceptions : Prop :=
  (∀ v : Word, ∃ q, Encodes (.encu v) q ∧ minimalUnsigned q = true) ∧
  Encodes (.encu 0) [0x00#8] ∧
  (∀ v : Word, ∃ q, Encodes (.encs v) q ∧
    (minimalSigned q = true ↔ ¬ ∃ k : Nat, 1 ≤ k ∧ k ≤ 9 ∧ asSigned64 v = -2 ^ (7 * k - 1))) ∧
  (∀ (v : Word) (k : Nat), 1 ≤ k → k ≤ 9 → asSigned64 v = -2 ^ (7 * k - 1) →
    ∃ p : List Byte, Encodes (.encs v) (p ++ [0x7F#8]) ∧ minimalSigned (p ++ [0x7F#8]) = false ∧
      signedValue p = asSigned64 v ∧ Decodes (.decs p) v) ∧
  (∀ (v : Word) (p : List Byte), 0 < asSigned64 v → Encodes (.encs v) (p ++ [0x00#8]) →
    ∃ w, Decodes (.decs p) w ∧ w ≠ v)

/-- 42_laws R141: every request in the domain has exactly one response, the same in every state; the encodes are
injective (which the spec marks as derived from R136) and the decodes are not. -/
def Obligations.EveryRequestInTheDomainHasOneResponse : Prop :=
  (∀ r : Request, (decode r).wf = true → ∃! a : Response, Answers (decode r) a) ∧
  (∀ (u u' : Word) (q : List Byte), Encodes (.encu u) q → Encodes (.encu u') q → u = u') ∧
  (∀ (i i' : Word) (q : List Byte), Encodes (.encs i) q → Encodes (.encs i') q → i = i') ∧
  (∃ (q q' : List Byte) (v : Word), q ≠ q' ∧ Decodes (.decu q) v ∧ Decodes (.decu q') v) ∧
  (∃ (q q' : List Byte) (v : Word), q ≠ q' ∧ Decodes (.decs q) v ∧ Decodes (.decs q') v)

/-- 42_laws R143 (b) and (c) (marked derived from 41_decode R118): for up to nine bytes DECS differs from DECU by
`2^(7n)` exactly when the last byte's bit 6 is set, so a form must be decoded with the signedness it was encoded with.
-/
def Obligations.SignedAndUnsignedDecodeCompared : Prop :=
  (∀ q : List Byte, 1 ≤ q.length → q.length ≤ 9 → ∃ u i : Word, Decodes (.decu q) u ∧ Decodes (.decs q) i ∧
    asSigned64 i = (u.toNat : Int) - if formSign q then 2 ^ (7 * q.length) else 0) ∧
  Encodes (.encu 127) [0x7F#8] ∧ Decodes (.decs [0x7F#8]) (trunc64 (-1)) ∧
  Encodes (.encs (trunc64 (-1))) [0x7F#8] ∧ Decodes (.decu [0x7F#8]) 127

/-- 30_encoding R67, 20_memory R54: the continuation-bit convention finds the end of every encoder output, whatever
follows it in the host's stream, and the bytes cut out decode to the value encoded. -/
def Obligations.FramingConventionCutsEncoderOutputs : Prop :=
  (∀ (u : Word) (rest : List Byte), ∃ q, Encodes (.encu u) q ∧ cutForm (q ++ rest) = some (q, rest) ∧
    Decodes (.decu q) u) ∧
  (∀ (i : Word) (rest : List Byte), ∃ q, Encodes (.encs i) q ∧ cutForm (q ++ rest) = some (q, rest) ∧
    Decodes (.decs q) i)

/-- 00_scope R7: every encoder output fits the response's capacity, is short enough for a decode, and can be presented
to one, whatever the open `INCAP` is. -/
def Obligations.EncoderOutputsFitEveryCapacity : Prop :=
  ∀ (v : Word) (i : Instr) (q : List Byte), i = .encu v ∨ i = .encs v → Encodes i q →
    q.length ≤ Config.outcap ∧ q.length ≤ Config.core.maxlen ∧ q.length ≤ Config.core.incap

/-! ### Errors, independence, hazards, interworking -/

/-- 60_exceptions R152: no request makes the status 2 or 3, and every decode path is implemented. -/
def Obligations.NotImplementedNeverAppears : Prop :=
  (∀ (r : Request) (s t : State), exec (decode r) s = .next t →
    ∃ a : Response, t.rsp = some a ∧ (a.status = 0#2 ∨ a.status = 1#2)) ∧
  (∀ q : List Byte, q ≠ [] → (∃ a, Answers (.decu q) a) ∧ (∃ a, Answers (.decs q) a))

/-- 60_exceptions R156: after an error the next transaction answers as if the failed one had never been issued, and
repeating the over-long request fails again. -/
def Obligations.ErrorDoesNotOutliveItsTransaction : Prop :=
  ∀ (q : List Byte) (e : Instr), 10 < q.length → e = .decu q ∨ e = .decs q → ∀ s : State,
    ∃ t : State, exec e s = .next t ∧
      exec e t = .next { t with rsp := some overflowResponse } ∧
      ∀ i : Instr, exec i t = exec i s

/-- 20_memory R49, 10_state R20: a transaction's response is the same whatever transactions came before it and
whatever wait behind it: it is the one the request has alone, from reset. That outstanding requests wait in a list is
the model's choice (log entry 1). -/
def Obligations.TransactionsAreIndependent : Prop :=
  ∀ (before after : List Request) (r : Request) (s : State),
    (∀ x ∈ before, (decode x).wf = true) → (decode r).wf = true → s.pending = before ++ r :: after →
    ∃ a : Response,
      step (State.reset.present r) = .next { State.reset with rsp := some a } ∧
      Host.Core.run Sys2Proof.core (before.length + 1) s = Host.Outcome.next (State.mk after (some a))

/-- 42_laws R141, R142, 70_reset R183(a): when every outstanding request lies in the domain, the machine runs on for
any number of steps without a fault or refusal. The list of outstanding requests (log entry 1) and the idle step that it
takes once the list is empty (log entry 3) are the model's choice: the spec has no step without a transaction. -/
def Obligations.RequestsInTheDomainNeverStopTheMachine : Prop :=
  ∀ (k : Nat) (s : State), s.InDomain → ∃ t : State, Host.Core.run Sys2Proof.core k s = Host.Outcome.next t ∧ t.InDomain

/-- 70_reset R184 (marked derived from 41_decode R113): a framing mistake is silent: whatever bytes a host cuts out,
up to ten, decode to some value with status 0. -/
def Obligations.FramingMistakesAreSilent : Prop :=
  (∀ q : List Byte, 1 ≤ q.length → q.length ≤ 10 → (∃ v, Decodes (.decu q) v) ∧ (∃ v, Decodes (.decs q) v)) ∧
  Encodes (.encu 624485) [0xE5#8, 0x8E#8, 0x26#8] ∧
  Decodes (.decu [0xE5#8, 0x8E#8]) 1893 ∧ Decodes (.decu [0x81#8, 0x01#8, 0x7F#8]) 2080897

/-- 70_reset R186 (marked derived from 42_laws R143): decoding with the other signedness gives status 0 always, and a
wrong value as follows. An unsigned form read as signed has another 64-bit pattern exactly when bit 6 of its last byte is
set; read as a signed number it is also wrong from `2^63` on. A signed form read as unsigned is another number exactly
when the value is negative, and up to nine bytes that number is `2^(7n)` too large; a padded form, which the rule names
with the negative ones, reads right, as the rule's own example of 127 says. Then the rule's examples. -/
def Obligations.SignednessMustMatch : Prop :=
  (∀ u : Word, ∃ (q : List Byte) (w : Word), Encodes (.encu u) q ∧ Decodes (.decs q) w ∧
    (w ≠ u ↔ formSign q = true) ∧
    (asSigned64 w ≠ (u.toNat : Int) ↔ formSign q = true ∨ 2 ^ 63 ≤ u.toNat)) ∧
  (∀ i : Word, ∃ (q : List Byte) (w : Word), Encodes (.encs i) q ∧ Decodes (.decu q) w ∧
    ((w.toNat : Int) ≠ asSigned64 i ↔ asSigned64 i < 0) ∧
    (asSigned64 i < 0 → q.length ≤ 9 → (w.toNat : Int) = asSigned64 i + 2 ^ (7 * q.length))) ∧
  (∃ q, Encodes (.encu 127) q ∧ Decodes (.decs q) (trunc64 (-1))) ∧
  (∃ q, Encodes (.encu 64) q ∧ Decodes (.decs q) (trunc64 (-64))) ∧
  (∃ q, Encodes (.encs (trunc64 (-1))) q ∧ Decodes (.decu q) 127) ∧
  (∃ q, Encodes (.encs (trunc64 (-123456))) q ∧ Decodes (.decu q) 1973696) ∧
  (Encodes (.encs 127) [0xFF#8, 0x00#8] ∧ Decodes (.decu [0xFF#8, 0x00#8]) 127)

/-- 70_reset R187 (marked derived from 41_decode R123 and 40_encode R95): interworking with a peer that uses the
source's settings: what it rejects, what this CORE reads of its forms, and that it reads this CORE's forms. -/
def Obligations.InterworkingWithTheSourceSettings : Prop :=
  (∀ u : Word, decodeUnsigned { Config.core with maxlen := 8 } (encodeUnsigned u) = .lengthOverflow ↔
    2 ^ 56 ≤ u.toNat) ∧
  (∀ i : Word, decodeSigned { Config.core with maxlen := 8 } (encodeSigned Config.core i) = .lengthOverflow ↔
    2 ^ 55 ≤ (asSigned64 i).natAbs) ∧
  (∀ (i : Word) (k : Nat), 1 ≤ k → k ≤ 9 → 2 ^ (7 * k - 1) ≤ asSigned64 i → asSigned64 i < 2 ^ (7 * k) →
    Decodes (.decs (encodeSigned { Config.core with spad := false } i)) (trunc64 (asSigned64 i - 2 ^ (7 * k)))) ∧
  (∀ i : Word, decodeSigned { Config.core with spad := false } (encodeSigned Config.core i) = .decoded i) ∧
  (∀ k : Nat, 1 ≤ k → k ≤ 9 →
    Decodes (.decs (List.replicate (k - 1) 0x80#8 ++ [0x40#8])) (trunc64 (-2 ^ (7 * k - 1))))

/-! ### The invariant -/

/-- Every step keeps the response legal: a value alone, a well-formed form of 1 to 10 bytes alone, or LengthOverflow
alone (10_state R22, 42_laws R138, 60_exceptions R151, R152); from every state that meets the invariant. The state that
holds the response (log entry 1) and the idle step (log entry 3) are the model's choice. -/
def Obligations.EveryStepKeepsTheResponseLegal : Prop :=
  ∀ s t : State, s.Inv → step s = .next t → t.Inv

/-- The invariant holds at reset. -/
def Obligations.ResetMeetsTheInvariant : Prop :=
  State.reset.Inv
end

