-- ==== Sys2Proof/Laws/Operands.lean ====
section
/-! SUPPORT. What each function of Machine/Operands.lean does, said once: the fields of a byte, the unsigned and signed
value of a sequence, bit-length, complement, and the emitted groups of a number. -/

namespace Sys2Proof.Machine

/-! ### The encoded byte -/

@[simp] theorem payload_encodedByte (m : Bool) (g : Group) : payload (encodedByte m g) = g := by
  revert m g; decide

@[simp] theorem continuation_encodedByte (m : Bool) (g : Group) : continuation (encodedByte m g) = m := by
  revert m g; decide

@[simp] theorem signBit_encodedByte (m : Bool) (g : Group) : signBit (encodedByte m g) = g.getLsbD 6 := by
  revert m g; decide

/-- A byte is its continuation bit and its payload (30_encoding R60). -/
theorem encodedByte_of_fields (b : Byte) : encodedByte (continuation b) (payload b) = b := by
  revert b; decide

theorem signBit_eq_payload (b : Byte) : signBit b = (payload b).getLsbD 6 := by
  revert b; decide

theorem payload_toNat (b : Byte) : (payload b).toNat = b.toNat % 2 ^ 7 := by
  simp [payload]

/-- Setting bit 7 keeps the payload. -/
@[simp] theorem setContinuation_encodedByte (m : Bool) (g : Group) :
    setContinuation (encodedByte m g) = encodedByte true g := by
  revert m g; decide

/-- Bit 6 of a payload says whether it is 64 or more. -/
theorem group_sign_iff (g : Group) : g.getLsbD 6 = true ↔ 2 ^ 6 ≤ g.toNat := by
  revert g; decide

/-! ### The unsigned value of a sequence -/

@[simp] theorem unsignedValue_nil : unsignedValue [] = 0 := rfl
theorem unsignedValue_cons (b : Byte) (s : List Byte) :
    unsignedValue (b :: s) = (payload b).toNat + 2 ^ 7 * unsignedValue s := rfl

theorem unsignedValue_lt (s : List Byte) : unsignedValue s < 2 ^ (7 * s.length) := by
  induction s with
  | nil => simp
  | cons b s ih =>
    have hb := (payload b).isLt
    have hp : 2 ^ (7 * (b :: s).length) = 2 ^ 7 * 2 ^ (7 * s.length) := by
      rw [List.length_cons, ← pow_add]; congr 1; omega
    rw [unsignedValue_cons, hp]; omega

theorem unsignedValue_append (s t : List Byte) :
    unsignedValue (s ++ t) = unsignedValue s + 2 ^ (7 * s.length) * unsignedValue t := by
  induction s with
  | nil => simp
  | cons b s ih =>
    have hp : 2 ^ (7 * (b :: s).length) = 2 ^ 7 * 2 ^ (7 * s.length) := by
      rw [List.length_cons, ← pow_add]; congr 1; omega
    rw [List.cons_append, unsignedValue_cons, unsignedValue_cons, ih, hp]; ring

theorem unsignedValue_concat (s : List Byte) (b : Byte) :
    unsignedValue (s ++ [b]) = unsignedValue s + 2 ^ (7 * s.length) * (payload b).toNat := by
  simp [unsignedValue_append, unsignedValue_cons]

/-- Only the payloads matter (41_decode R113). -/
theorem unsignedValue_congr {s t : List Byte} (h : s.map payload = t.map payload) :
    unsignedValue s = unsignedValue t := by
  induction s generalizing t with
  | nil => cases t with
    | nil => rfl
    | cons c t => simp at h
  | cons b s ih => cases t with
    | nil => simp at h
    | cons c t =>
      simp only [List.map_cons, List.cons.injEq] at h
      rw [unsignedValue_cons, unsignedValue_cons, h.1, ih h.2]

/-! ### The sign of a form, and its signed value -/

@[simp] theorem formSign_nil : formSign [] = false := rfl
@[simp] theorem formSign_concat (s : List Byte) (b : Byte) : formSign (s ++ [b]) = signBit b := by
  simp [formSign]

theorem formSign_congr {s t : List Byte} (h : s.map payload = t.map payload) : formSign s = formSign t := by
  have h' := congrArg List.getLast? h
  simp only [List.getLast?_map] at h'
  unfold formSign
  cases hs : s.getLast? <;> cases ht : t.getLast? <;> rw [hs, ht] at h' <;> simp at h'
  simp only [signBit_eq_payload, h']

/-- The sign bit is the top bit of the `7n`-bit number `U(s)` (30_encoding R63). -/
theorem formSign_iff {s : List Byte} (hs : s ≠ []) :
    formSign s = true ↔ 2 ^ (7 * s.length - 1) ≤ unsignedValue s := by
  obtain ⟨t, b, rfl⟩ : ∃ t b, s = t ++ [b] := ⟨_, _, (List.dropLast_append_getLast hs).symm⟩
  have hp : 2 ^ (7 * (t ++ [b]).length - 1) = 2 ^ (7 * t.length) * 2 ^ 6 := by
    rw [← pow_add]; congr 1; simp; omega
  have hlt := unsignedValue_lt t
  rw [formSign_concat, signBit_eq_payload, group_sign_iff, unsignedValue_concat, hp]
  constructor
  · intro h
    have := Nat.mul_le_mul_left (2 ^ (7 * t.length)) h
    omega
  · intro h
    by_contra hc
    have h1 : (payload b).toNat + 1 ≤ 2 ^ 6 := by omega
    have := Nat.mul_le_mul_left (2 ^ (7 * t.length)) h1
    rw [Nat.mul_add] at this
    omega

/-- A set sign bit needs a byte to stand in. -/
theorem ne_nil_of_formSign {s : List Byte} (h : formSign s = true) : s ≠ [] := by
  rintro rfl; simp at h

/-- `S(s)` is the two's-complement reading of the `7n`-bit number `U(s)` (30_encoding R63). -/
theorem signedValue_eq_toInt {s : List Byte} (hs : s ≠ []) :
    signedValue s = (BitVec.ofNat (7 * s.length) (unsignedValue s)).toInt := by
  have hlt := unsignedValue_lt s
  have hn : 0 < s.length := List.length_pos_iff.mpr hs
  have hp : 2 ^ (7 * s.length) = 2 * 2 ^ (7 * s.length - 1) := by
    rw [← pow_succ']; congr 1; omega
  have hf := formSign_iff hs
  rw [BitVec.toInt_eq_toNat_cond, BitVec.toNat_ofNat, Nat.mod_eq_of_lt hlt]
  unfold signedValue
  by_cases h : formSign s = true
  · rw [if_pos h, if_neg (by have := hf.mp h; omega)]; push_cast; rfl
  · rw [if_neg h, if_pos (by have := mt hf.mpr h; omega)]

/-- `S(s)` differs from `U(s)` by a multiple of `2^(7n)`. -/
theorem signedValue_range {s : List Byte} (hs : s ≠ []) :
    -(2 ^ (7 * s.length - 1) : Int) ≤ signedValue s ∧ signedValue s < 2 ^ (7 * s.length - 1) := by
  rw [signedValue_eq_toInt hs]
  have hn : 0 < s.length := List.length_pos_iff.mpr hs
  exact ⟨BitVec.le_toInt _, BitVec.toInt_lt⟩

/-! ### Bit-length and complement -/

/-- `bitlen(x)` is the least `k` with `x < 2^k` (00_scope R10). -/
theorem bitlen_le_iff (x k : Nat) : bitlen x ≤ k ↔ x < 2 ^ k := by
  unfold bitlen
  by_cases h : x = 0
  · simp [h]
  · rw [if_neg h, Nat.succ_le_iff, Nat.log2_lt h]

theorem lt_bitlen_iff (x k : Nat) : k < bitlen x ↔ 2 ^ k ≤ x := by
  rw [← not_le, bitlen_le_iff, not_lt]

/-- Complement and add 1 is negation modulo `2^N` (42_laws R134). -/
theorem maskedNot_add_one {N x : Nat} (h : x < 2 ^ N) : maskedNot N x + 1 = 2 ^ N - x := by
  unfold maskedNot
  rw [Nat.mod_eq_of_lt h]; omega

/-! ### The emitted groups of a number -/

@[simp] theorem emitGroups_length (n t : Nat) : (emitGroups n t).length = n := by
  simp [emitGroups]

theorem emitGroups_getElem (n t i : Nat) (h : i < (emitGroups n t).length) :
    (emitGroups n t)[i] = encodedByte (decide (i + 1 < n)) (group t i) := by
  simp [emitGroups]

theorem group_toNat (t i : Nat) : (group t i).toNat = t / 2 ^ (7 * i) % 2 ^ 7 := by
  simp [group, Nat.shiftRight_eq_div_pow]

/-- Group `i` depends on the low `7(i+1)` bits alone. -/
theorem group_mod (t i n : Nat) (h : i < n) : group (t % 2 ^ (7 * n)) i = group t i := by
  apply BitVec.eq_of_toNat_eq
  rw [group_toNat, group_toNat]
  obtain ⟨k, rfl⟩ : ∃ k, n = i + 1 + k := ⟨n - (i + 1), by omega⟩
  have e : 2 ^ (7 * (i + 1 + k)) = 2 ^ (7 * i) * (2 ^ 7 * 2 ^ (7 * k)) := by
    rw [← pow_add, ← pow_add]; congr 1; ring
  rw [e, Nat.mod_mul_right_div_self, Nat.mod_mul_right_mod]

theorem emitGroups_mod (n t : Nat) : emitGroups n (t % 2 ^ (7 * n)) = emitGroups n t := by
  apply List.ext_getElem (by simp)
  intro i h1 h2
  rw [emitGroups_getElem, emitGroups_getElem, group_mod _ _ _ (by simpa using h1)]

/-- Emitting one more group in front: the loop's shape. -/
theorem emitGroups_succ (n t : Nat) :
    emitGroups (n + 1) t = encodedByte (decide (0 < n)) (group t 0) :: emitGroups n (t / 2 ^ 7) := by
  apply List.ext_getElem (by simp)
  intro i h1 h2
  cases i with
  | zero => rw [emitGroups_getElem]; simp
  | succ i =>
    rw [emitGroups_getElem, List.getElem_cons_succ, emitGroups_getElem]
    congr 1
    · simp
    · apply BitVec.eq_of_toNat_eq
      rw [group_toNat, group_toNat, Nat.div_div_eq_div_mul, ← pow_add]
      congr 3; ring

/-- The unsigned value of `n` emitted groups is the low `7n` bits of the number (30_encoding R62). -/
theorem unsignedValue_emitGroups (n t : Nat) : unsignedValue (emitGroups n t) = t % 2 ^ (7 * n) := by
  induction n generalizing t with
  | zero => simp [emitGroups, Nat.mod_one]
  | succ n ih =>
    have e : 2 ^ (7 * (n + 1)) = 2 ^ 7 * 2 ^ (7 * n) := by rw [← pow_add]; congr 1; ring
    rw [emitGroups_succ, unsignedValue_cons, payload_encodedByte, ih, group_toNat, e, Nat.mod_mul]
    simp

/-- Emitted groups form a well-formed chain (30_encoding R66). -/
theorem chain_emitGroups {n : Nat} (h : 0 < n) (t : Nat) : ChainWellFormed (emitGroups n t) := by
  refine ⟨fun hc => ?_, fun i hi => ?_⟩
  · have := congrArg List.length hc; simp at this; omega
  · rw [emitGroups_getElem, continuation_encodedByte, emitGroups_length]

/-- A well-formed chain is determined by its length and its value: it is its own groups emitted again. -/
theorem emitGroups_of_chain {s : List Byte} (h : ChainWellFormed s) : emitGroups s.length (unsignedValue s) = s := by
  obtain ⟨-, hc⟩ := h
  have key : ∀ (s : List Byte) (i : Nat) (hi : i < s.length), group (unsignedValue s) i = payload s[i] := by
    intro s
    induction s with
    | nil => intro i hi; simp at hi
    | cons b s ih =>
      intro i hi
      have hb := (payload b).isLt
      cases i with
      | zero =>
        apply BitVec.eq_of_toNat_eq
        rw [group_toNat, unsignedValue_cons]
        simp only [List.getElem_cons_zero, Nat.mul_zero, pow_zero, Nat.div_one]
        omega
      | succ i =>
        rw [List.getElem_cons_succ, ← ih i (by simpa using hi)]
        apply BitVec.eq_of_toNat_eq
        have e : 2 ^ (7 * (i + 1)) = 2 ^ 7 * 2 ^ (7 * i) := by rw [← pow_add]; congr 1; ring
        rw [group_toNat, group_toNat, unsignedValue_cons, e, ← Nat.div_div_eq_div_mul]
        congr 2; omega
  apply List.ext_getElem (by simp)
  intro i h1 h2
  rw [emitGroups_getElem, key s i h2, ← hc i h2, encodedByte_of_fields]

/-- The sign of `n` emitted groups is bit `7n-1` of the number. -/
theorem formSign_emitGroups {n : Nat} (h : 0 < n) (t : Nat) :
    formSign (emitGroups n t) = true ↔ 2 ^ (7 * n - 1) ≤ t % 2 ^ (7 * n) := by
  rw [formSign_iff (chain_emitGroups h t).1, unsignedValue_emitGroups, emitGroups_length]

end Sys2Proof.Machine
end

