-- ==== Sys2Proof/Laws/State.lean ====
section
/-! SUPPORT. One lemma per field and update of State, so that no later proof unfolds a record update. -/

namespace Sys2Proof.Machine

@[simp] theorem State.respond_pending (s : State) (r : Response) : (s.respond r).pending = s.pending := rfl
@[simp] theorem State.respond_rsp (s : State) (r : Response) : (s.respond r).rsp = some r := rfl
@[simp] theorem State.respond_respond (s : State) (r r' : Response) : (s.respond r).respond r' = s.respond r' := rfl
@[simp] theorem State.present_pending (s : State) (r : Request) : (s.present r).pending = r :: s.pending := rfl
@[simp] theorem State.present_rsp (s : State) (r : Request) : (s.present r).rsp = s.rsp := rfl
@[simp] theorem State.idle_eq (s : State) : s.idle = s := rfl
@[simp] theorem State.reset_pending : State.reset.pending = [] := rfl
@[simp] theorem State.reset_rsp : State.reset.rsp = none := rfl

/-- Responding is the record update the statements write out. -/
theorem State.respond_eq (s : State) (r : Response) : s.respond r = { s with rsp := some r } := rfl

/-- With no request outstanding none is taken. -/
theorem State.takeRequest_nil {s : State} (h : s.pending = []) : s.takeRequest = none := by
  simp [State.takeRequest, h]

/-- The request taken is the first outstanding one, and only it leaves. -/
theorem State.takeRequest_cons {s : State} {r : Request} {rest : List Request} (h : s.pending = r :: rest) :
    s.takeRequest = some (r, { s with pending := rest }) := by
  simp [State.takeRequest, h]

end Sys2Proof.Machine
end

