-- ==== Sys2Proof/Laws/Ops.lean ====
section
/-! SUPPORT. What the shared operations can answer: ending a transaction, taking a request, the checks of a decode. -/

namespace Sys2Proof.Machine

@[simp] theorem responseOf_encoded (q : List Byte) : responseOf (.encoded q) = some (encodedOk q) := rfl
@[simp] theorem responseOf_decoded (v : Word) : responseOf (.decoded v) = some (decodedOk v) := rfl
@[simp] theorem responseOf_lengthOverflow : responseOf .lengthOverflow = some overflowResponse := rfl
@[simp] theorem responseOf_outsideDomain : responseOf .outsideDomain = none := rfl

/-- Ending a transaction either answers a response and changes nothing else, or refuses. -/
theorem State.answer_cases (s : State) (res : Result) :
    (∃ r, responseOf res = some r ∧ s.answer res = .next { s with rsp := some r }) ∨
    (res = .outsideDomain ∧ s.answer res = .refused .emptySequence) := by
  cases res
  · exact .inl ⟨_, rfl, rfl⟩
  · exact .inl ⟨_, rfl, rfl⟩
  · exact .inl ⟨_, rfl, rfl⟩
  · exact .inr ⟨rfl, rfl⟩

theorem State.answer_of_some {s : State} {res : Result} {r : Response} (h : responseOf res = some r) :
    s.answer res = .next { s with rsp := some r } := by
  simp [State.answer, h, State.respond]

/-- An over-long sequence raises LengthOverflow, whatever its bytes (41_decode R111). -/
theorem checkLength_long {cfg : Config} {s : List Byte} (h : cfg.maxlen < s.length) (v : Word) :
    checkLength cfg s v = .lengthOverflow := by
  simp [checkLength, h]

/-- A sequence of legal length has its value as result (41_decode R111). -/
theorem checkLength_legal {cfg : Config} {s : List Byte} (h1 : s ≠ []) (h2 : s.length ≤ cfg.maxlen) (v : Word) :
    checkLength cfg s v = .decoded v := by
  simp [checkLength, h1, h2]

/-- The empty sequence lies outside the domain (41_decode R120). -/
@[simp] theorem checkLength_nil (cfg : Config) (v : Word) : checkLength cfg [] v = .outsideDomain := by
  simp [checkLength]

@[simp] theorem core_maxlen : Config.core.maxlen = 10 := rfl
@[simp] theorem core_spad : Config.core.spad = true := rfl

/-- A step with a request outstanding runs the operation it decodes to. -/
theorem step_of_pending {s : State} {r : Request} {rest : List Request} (h : s.pending = r :: rest) :
    step s = exec (decode r) { s with pending := rest } := by
  simp [step, State.takeRequest_cons h]

/-- A step with none outstanding changes nothing. -/
theorem step_of_idle {s : State} (h : s.pending = []) : step s = .next s := by
  simp [step, State.takeRequest_nil h]

end Sys2Proof.Machine
end

