-- ==== Sys2Proof/Laws/Decoders.lean ====
section
/-! SUPPORT. What the decoders' computations come to: the accumulation is `U(s)` and the sign extension is `S(s)`, each
brought to 64 bits (41_decode R110, R118). -/

namespace Sys2Proof.Machine

/-- The 64-bit accumulation computes `trunc_64(U(s))` (41_decode R110). -/
theorem accumulate_eq (s : List Byte) : accumulate s = BitVec.ofNat 64 (unsignedValue s) := by
  induction s with
  | nil => rfl
  | cons b s ih =>
    have hb := (payload b).isLt
    apply BitVec.eq_of_toNat_eq
    rw [accumulate, ih, unsignedValue_cons, ← BitVec.add_eq_or_of_and_eq_zero]
    · simp only [BitVec.toNat_add, BitVec.toNat_shiftLeft, BitVec.toNat_ofNat, BitVec.toNat_setWidth,
        Nat.shiftLeft_eq]
      omega
    · ext i hi
      by_cases h : i < 7
      · simp [h]
      · have : (payload b).getLsbD i = false := BitVec.getLsbD_of_ge _ _ (by omega)
        simp [this]

/-- Complement, mask, add 1 and negate is subtraction of `2^(7n)` (41_decode R117). -/
theorem signExtended_eq (s : List Byte) : signExtended s = trunc64 (signedValue s) := by
  have hlt := unsignedValue_lt s
  unfold signExtended signedValue
  congr 1
  split
  · rw [maskedNot_add_one hlt]; push_cast [hlt.le]; ring
  · rfl

/-- `trunc_64` of a natural number. -/
theorem trunc64_natCast (n : Nat) : trunc64 (n : Int) = BitVec.ofNat 64 n := by
  simp [trunc64]

/-- With a clear sign bit both decodes compute the same value (41_decode R116). -/
theorem signExtended_of_clear {s : List Byte} (h : formSign s = false) : signExtended s = accumulate s := by
  rw [signExtended_eq, accumulate_eq, signedValue, h]
  simp [trunc64]

/-- With at least ten groups the sign makes no difference to the low 64 bits (41_decode R119). -/
theorem signExtended_of_ten {s : List Byte} (h : 10 ≤ s.length) : signExtended s = accumulate s := by
  rw [signExtended_eq, accumulate_eq, signedValue]
  split
  · have hd : ((2 : Int) ^ 64) ∣ 2 ^ (7 * s.length) := pow_dvd_pow _ (by omega)
    obtain ⟨k, hk⟩ := hd
    apply BitVec.eq_of_toNat_eq
    rw [trunc64, hk, BitVec.toNat_ofInt, BitVec.toNat_ofNat]
    push_cast
    rw [Int.sub_mul_emod_self_left]
    omega
  · simp [trunc64]

theorem decodeUnsigned_long {cfg : Config} {s : List Byte} (h : cfg.maxlen < s.length) :
    decodeUnsigned cfg s = .lengthOverflow := checkLength_long h _

theorem decodeSigned_long {cfg : Config} {s : List Byte} (h : cfg.maxlen < s.length) :
    decodeSigned cfg s = .lengthOverflow := checkLength_long h _

/-- DECU on a sequence of legal length (41_decode R110). -/
theorem decodeUnsigned_legal {cfg : Config} {s : List Byte} (h1 : s ≠ []) (h2 : s.length ≤ cfg.maxlen) :
    decodeUnsigned cfg s = .decoded (BitVec.ofNat 64 (unsignedValue s)) := by
  rw [decodeUnsigned, checkLength_legal h1 h2, accumulate_eq]

/-- DECS on a sequence of legal length (41_decode R115). -/
theorem decodeSigned_legal {cfg : Config} {s : List Byte} (h1 : s ≠ []) (h2 : s.length ≤ cfg.maxlen) :
    decodeSigned cfg s = .decoded (trunc64 (signedValue s)) := by
  rw [decodeSigned, checkLength_legal h1 h2, signExtended_eq]

end Sys2Proof.Machine
end

