-- ==== Sys2Proof/Laws/Encoders.lean ====
section
/-! SUPPORT. What the encoders' computations come to: the groups of one number, emitted once (40_encode R92, R97). -/

namespace Sys2Proof.Machine

/-- The loop of ENCU with enough fuel emits the groups below the value's bit-length. -/
theorem encuLoop_eq (fuel : Nat) (v : Word) (h : v.toNat < 2 ^ (7 * fuel)) :
    encuLoop fuel v = emitGroups ((bitlen v.toNat + 6) / 7) v.toNat := by
  induction fuel generalizing v with
  | zero =>
    have : v.toNat = 0 := by simpa using h
    simp [encuLoop, this, bitlen, emitGroups]
  | succ fuel ih =>
    by_cases hv : v = 0
    · subst hv; simp [encuLoop, bitlen, emitGroups]
    · have hv0 : v.toNat ≠ 0 := fun hc => hv (BitVec.eq_of_toNat_eq (by simpa using hc))
      have hsh : (v >>> 7).toNat = v.toNat / 2 ^ 7 := by simp [Nat.shiftRight_eq_div_pow]
      have hr : (v >>> 7).toNat < 2 ^ (7 * fuel) := by
        rw [hsh, Nat.div_lt_iff_lt_mul (by norm_num), ← pow_add]
        exact lt_of_lt_of_eq h (by congr 1)
      have hb : bitlen (v.toNat / 2 ^ 7) = bitlen v.toNat - 7 := by
        apply le_antisymm
        · rw [bitlen_le_iff, Nat.div_lt_iff_lt_mul (by norm_num), ← pow_add, ← bitlen_le_iff]; omega
        · have := (bitlen_le_iff (v.toNat / 2 ^ 7) (bitlen (v.toNat / 2 ^ 7))).mp le_rfl
          rw [Nat.div_lt_iff_lt_mul (by norm_num), ← pow_add, ← bitlen_le_iff] at this
          omega
      have hpos : 0 < bitlen v.toNat := by rw [lt_bitlen_iff]; omega
      have hn : (bitlen v.toNat + 6) / 7 = (bitlen (v.toNat / 2 ^ 7) + 6) / 7 + 1 := by
        rw [hb]; omega
      have hmore : decide (v >>> 7 ≠ 0) = decide (0 < (bitlen (v.toNat / 2 ^ 7) + 6) / 7) := by
        rw [decide_eq_decide]
        have h1 : v >>> 7 ≠ 0 ↔ v.toNat / 2 ^ 7 ≠ 0 := by
          rw [← hsh, ne_eq, ← BitVec.toNat_inj]; simp
        have h2 := lt_bitlen_iff (v.toNat / 2 ^ 7) 0
        rw [pow_zero] at h2
        rw [h1]; omega
      have hg : v.extractLsb' 0 7 = group v.toNat 0 := by
        apply BitVec.eq_of_toNat_eq; simp [group_toNat]
      rw [encuLoop, if_neg hv, ih _ hr, hsh, hn, emitGroups_succ, hmore, hg]

/-- The number of bytes ENCU gives (30_encoding R64). -/
def unsignedLength (v : Nat) : Nat := max 1 ((bitlen v + 6) / 7)

/-- ENCU emits the groups of its operand (40_encode R92). -/
theorem encodeUnsigned_eq (v : Word) : encodeUnsigned v = emitGroups (unsignedLength v.toNat) v.toNat := by
  unfold encodeUnsigned unsignedLength
  by_cases hv : v = 0
  · subst hv; decide
  · have hv0 : v.toNat ≠ 0 := fun hc => hv (BitVec.eq_of_toNat_eq (by simpa using hc))
    have hpos : 0 < bitlen v.toNat := by rw [lt_bitlen_iff]; omega
    rw [if_neg hv, encuLoop_eq _ _ (lt_trans v.isLt (by norm_num)), max_eq_right (by omega)]

theorem unsignedLength_pos (v : Nat) : 1 ≤ unsignedLength v := le_max_left _ _

/-- A value fits in the groups ENCU emits. -/
theorem lt_two_pow_unsignedLength (v : Nat) : v < 2 ^ (7 * unsignedLength v) := by
  rw [← bitlen_le_iff, unsignedLength]; omega

theorem bitlen_word_le (v : Word) : bitlen v.toNat ≤ 64 := (bitlen_le_iff _ _).mpr v.isLt

/-- The magnitude of a signed value has at most 64 bits, and 63 when it is not negative (42_laws R133). -/
theorem natAbs_toInt_le (v : Word) : v.toInt.natAbs ≤ 2 ^ 63 := by
  have h1 := BitVec.le_toInt v
  have h2 := BitVec.toInt_lt (x := v)
  norm_num at h1 h2 ⊢; omega

theorem bitlen_natAbs_le (v : Word) : bitlen v.toInt.natAbs ≤ 64 := by
  rw [bitlen_le_iff]; exact lt_of_le_of_lt (natAbs_toInt_le v) (by norm_num)

/-- The number of bytes ENCS gives (30_encoding R64). -/
def signedLength (v : Word) : Nat := bitlen v.toInt.natAbs / 7 + 1

theorem signedLength_pos (v : Word) : 1 ≤ signedLength v := Nat.succ_pos _

theorem signedLength_le (v : Word) : signedLength v ≤ 10 := by
  have := bitlen_natAbs_le v; unfold signedLength; omega

/-- Last byte of emitted groups. -/
theorem emitGroups_concat (n t : Nat) :
    emitGroups (n + 1) t = (List.range n).map (fun i => encodedByte true (group t i)) ++ [encodedByte false (group t n)] := by
  unfold emitGroups
  rw [List.range_succ, List.map_append]
  congr 1
  · apply List.map_congr_left
    intro i hi
    have := List.mem_range.mp hi
    rw [decide_eq_true (by omega)]
  · simp

/-- The padding step turns `n` groups of a number whose top bit is set into `n + 1` groups (40_encode R95). -/
theorem padSign_emitGroups (n t : Nat) (ht : t < 2 ^ (7 * (n + 1))) :
    padSign true (emitGroups (n + 1) t) =
      if formSign (emitGroups (n + 1) t) then emitGroups (n + 2) t else emitGroups (n + 1) t := by
  have hz : group t (n + 1) = 0 := by
    apply BitVec.eq_of_toNat_eq; rw [group_toNat, Nat.div_eq_of_lt ht]; rfl
  rw [emitGroups_concat n t, padSign, List.getLast?_concat, formSign_concat, emitGroups_concat (n + 1) t, hz]
  simp only [Bool.true_and, List.dropLast_concat, setContinuation_encodedByte]
  congr 1
  rw [List.range_succ, List.map_append, List.append_assoc]
  rfl

/-- ENCS emits the groups of its operand's two's-complement pattern, one group more than its bit-length needs
(40_encode R97). -/
theorem encodeSigned_eq (cfg : Config) (hc : cfg.spad = true) (v : Word) :
    encodeSigned cfg v = emitGroups (signedLength v) (v.toInt % 2 ^ 70).toNat := by
  unfold encodeSigned asSigned64 signedLength
  have hlo := BitVec.le_toInt v
  have hhi := BitVec.toInt_lt (x := v)
  norm_num at hlo hhi
  by_cases h : 0 ≤ v.toInt
  · have hcond := BitVec.toInt_eq_toNat_cond v
    have hv : v.toInt = v.toNat := by
      have := v.isLt
      split at hcond <;> omega
    have hm : (v.toInt % 2 ^ 70).toNat = v.toNat := by have := v.isLt; omega
    have hl := lt_two_pow_unsignedLength v.toNat
    have hn : v.toInt.natAbs = v.toNat := by omega
    rw [if_pos h, hc, encodeUnsigned_eq, hm, hn]
    obtain ⟨n, hn⟩ : ∃ n, unsignedLength v.toNat = n + 1 := ⟨unsignedLength v.toNat - 1, by
      have := unsignedLength_pos v.toNat; omega⟩
    rw [hn] at hl ⊢
    rw [padSign_emitGroups n _ hl]
    have hf := formSign_emitGroups (Nat.succ_pos n) v.toNat
    rw [Nat.mod_eq_of_lt hl, ← lt_bitlen_iff] at hf
    have hl' := (bitlen_le_iff _ _).mpr hl
    unfold unsignedLength at hn
    split
    · rename_i hs
      have := hf.mp hs
      congr 1; omega
    · rename_i hs
      have := mt hf.mpr hs
      congr 1; omega
  · have hm : (-v.toInt).toNat = v.toInt.natAbs := by omega
    rw [if_neg h, hm, encodeNegative, signedWidth, Nat.mul_div_cancel_left _ (by norm_num : 0 < 7)]
    generalize hL : bitlen v.toInt.natAbs / 7 + 1 = n
    have hlt : v.toInt.natAbs < 2 ^ (7 * n) := by rw [← bitlen_le_iff]; omega
    have hn10 : n ≤ 10 := by have := bitlen_natAbs_le v; omega
    have h70 : (0 : Int) ≤ v.toInt % 2 ^ 70 := Int.emod_nonneg _ (by norm_num)
    rw [maskedNot_add_one hlt, ← emitGroups_mod n (Int.toNat _)]
    congr 1
    have hd : (2 : Int) ^ (7 * n) ∣ 2 ^ 70 := pow_dvd_pow _ (by omega)
    zify [hlt.le]
    rw [Int.toNat_of_nonneg h70, Int.emod_emod_of_dvd _ hd, abs_of_neg (by omega), sub_neg_eq_add]
    have hz : (v.toInt.natAbs : Int) < 2 ^ (7 * n) := by exact_mod_cast hlt
    rw [← Int.add_emod_left, Int.emod_eq_of_lt] <;> omega

end Sys2Proof.Machine
end

