-- ==== Sys2Proof/Laws/Exec.lean ====
section
/-! SUPPORT. What `exec` gives for each operation, said once in the terms of Safety.lean, and that an operation has at most
one answer; the statements' proofs cite these and never unfold `exec`. -/

namespace Sys2Proof.Machine

theorem encodes_encu (v : Word) : Encodes (.encu v) (encodeUnsigned v) := fun _ => rfl

theorem encodes_encs (v : Word) : Encodes (.encs v) (encodeSigned Config.core v) := fun _ => rfl

theorem decodes_decu {q : List Byte} (h1 : q ≠ []) (h2 : q.length ≤ 10) :
    Decodes (.decu q) (BitVec.ofNat 64 (unsignedValue q)) := fun s => by
  simp only [exec, execDecu]
  rw [decodeUnsigned_legal h1 h2]; rfl

theorem decodes_decs {q : List Byte} (h1 : q ≠ []) (h2 : q.length ≤ 10) :
    Decodes (.decs q) (trunc64 (signedValue q)) := fun s => by
  simp only [exec, execDecs]
  rw [decodeSigned_legal h1 h2]; rfl

theorem overflows_decu {q : List Byte} (h : 10 < q.length) : Overflows (.decu q) := fun s => by
  simp only [exec, execDecu]
  rw [decodeUnsigned_long h]; rfl

theorem overflows_decs {q : List Byte} (h : 10 < q.length) : Overflows (.decs q) := fun s => by
  simp only [exec, execDecs]
  rw [decodeSigned_long h]; rfl

theorem refuses_decu_nil : Refuses (.decu []) := fun _ => rfl

theorem refuses_decs_nil : Refuses (.decs []) := fun _ => rfl

/-- An operation has at most one answer. -/
theorem Answers.unique {i : Instr} {a b : Response} (ha : Answers i a) (hb : Answers i b) : a = b := by
  have h := (ha State.reset).symm.trans (hb State.reset)
  simpa using h

theorem Encodes.unique {i : Instr} {q q' : List Byte} (h : Encodes i q) (h' : Encodes i q') : q = q' := by
  have := Answers.unique h h'
  simpa [encodedOk] using this

theorem Decodes.unique {i : Instr} {v v' : Word} (h : Decodes i v) (h' : Decodes i v') : v = v' := by
  have := Answers.unique h h'
  simpa [decodedOk] using this

/-- What a decode of a nonempty sequence can answer. -/
theorem decode_cases (q : List Byte) (hq : q ≠ []) :
    (q.length ≤ 10 ∧ Decodes (.decu q) (BitVec.ofNat 64 (unsignedValue q)) ∧
      Decodes (.decs q) (trunc64 (signedValue q))) ∨
    (10 < q.length ∧ Overflows (.decu q) ∧ Overflows (.decs q)) := by
  by_cases h : q.length ≤ 10
  · exact .inl ⟨h, decodes_decu hq h, decodes_decs hq h⟩
  · exact .inr ⟨by omega, overflows_decu (by omega), overflows_decs (by omega)⟩

end Sys2Proof.Machine
end

