-- ==== Sys2Proof/Laws/PerInstr.lean ====
section
/-! SUPPORT. Statements about every operation as syntax, one lemma per constructor of Instr. -/

/-- The select of an operation's request has its `SGN` and `DIR` bits where 30_encoding R68 puts them. -/
def Sys2Proof.Laws.SelectBits.Statement (i : Sys2Proof.Instr) : Prop :=
  (Sys2Proof.encode i).op.getLsbD 1 = i.isSigned ∧ (Sys2Proof.encode i).op.getLsbD 0 = i.isDecode

theorem Sys2Proof.Laws.SelectBits.encu (val : Sys2Proof.Word) :
    Sys2Proof.Laws.SelectBits.Statement (.encu val) := by
  constructor <;> simp [Sys2Proof.encode, Sys2Proof.Instr.isSigned, Sys2Proof.Instr.isDecode]

theorem Sys2Proof.Laws.SelectBits.decu (seq : List Sys2Proof.Byte) :
    Sys2Proof.Laws.SelectBits.Statement (.decu seq) := by
  constructor <;> simp [Sys2Proof.encode, Sys2Proof.Instr.isSigned, Sys2Proof.Instr.isDecode]

theorem Sys2Proof.Laws.SelectBits.encs (val : Sys2Proof.Word) :
    Sys2Proof.Laws.SelectBits.Statement (.encs val) := by
  constructor <;> simp [Sys2Proof.encode, Sys2Proof.Instr.isSigned, Sys2Proof.Instr.isDecode]

theorem Sys2Proof.Laws.SelectBits.decs (seq : List Sys2Proof.Byte) :
    Sys2Proof.Laws.SelectBits.Statement (.decs seq) := by
  constructor <;> simp [Sys2Proof.encode, Sys2Proof.Instr.isSigned, Sys2Proof.Instr.isDecode]
end

