-- ==== Sys2Proof/Tests/Slice0.lean ====
section
/-! SUPPORT. Tests. Expected results are the spec's own: 95_test_vectors (its section is named), 30_encoding R69. Then one
witness per statement with hypotheses: concrete values, at the ends of their ranges, that meet them. -/

namespace Sys2Proof.Tests

open Sys2Proof Sys2Proof.Machine

/-! ### Well-formedness: the one check refuses its ill-formed terms (41_decode R120; 95_test_vectors 2.8) -/

theorem test_wf_refuses_empty_decode : (Instr.decu []).wf = false ∧ (Instr.decs []).wf = false := by decide

theorem test_wf_accepts_the_rest : (Instr.encu 0).wf = true ∧ (Instr.encs 0).wf = true ∧
    (Instr.decu [0x00#8]).wf = true ∧ (Instr.decs [0x80#8]).wf = true := by decide

/-! ### Decoding: each operation's select written out bit by bit, SGN then DIR (30_encoding R68, R69; 95_test_vectors 3) -/

theorem test_decode_encu : decode ⟨0b00#2, 0x98765#64, [0x7F#8]⟩ = .encu 624485 := by decide
theorem test_decode_decu : decode ⟨0b01#2, 5, [0xE5#8, 0x8E#8, 0x26#8]⟩ = .decu [0xE5#8, 0x8E#8, 0x26#8] := by decide
theorem test_decode_encs : decode ⟨0b10#2, 0xFFFFFFFFFFFE1DC0#64, []⟩ = .encs (trunc64 (-123456)) := by decide
theorem test_decode_decs : decode ⟨0b11#2, 5, [0x7F#8]⟩ = .decs [0x7F#8] := by decide

/-- A number that is no 2-bit select is rejected by name (log entry 4). -/
theorem test_select_rejected : selectOfWord 8 4 = .error (.notTwoBits 4) ∧ selectOfWord 1 0 = .error (.tooFewBits 1) := by
  decide

/-! ### One step of each operation -/

/-- The response an operation leaves in the state after reset. -/
def responseAfter (i : Instr) : Option Response :=
  match exec i State.reset with
  | .next s => s.rsp
  | .fault _ => none
  | .refused _ => none

/-- 95_test_vectors 1.1, vector 2. -/
theorem test_encu_literal : responseAfter (.encu 624485) = some (encodedOk [0xE5#8, 0x8E#8, 0x26#8]) := by decide

/-- 95_test_vectors 2.1, the largest value. -/
theorem test_encu_largest : responseAfter (.encu 0xFFFFFFFFFFFFFFFF#64) =
    some (encodedOk (List.replicate 9 0xFF#8 ++ [0x01#8])) := by decide

/-- 95_test_vectors 2.2: negative and not minimal, nonnegative and padded, the most negative. -/
theorem test_encs_boundaries : responseAfter (.encs (trunc64 (-64))) = some (encodedOk [0xC0#8, 0x7F#8]) ∧
    responseAfter (.encs 127) = some (encodedOk [0xFF#8, 0x00#8]) ∧
    responseAfter (.encs 0x8000000000000000#64) = some (encodedOk (List.replicate 9 0x80#8 ++ [0x7F#8])) := by decide

/-- 95_test_vectors 1.1, vectors 5 and 6. -/
theorem test_encs_literal : responseAfter (.encs (trunc64 (-123456))) = some (encodedOk [0xC0#8, 0xBB#8, 0x78#8]) ∧
    responseAfter (.encs (trunc64 (-624485))) = some (encodedOk [0x9B#8, 0xF1#8, 0x59#8]) := by decide

/-- 95_test_vectors 2.5: bits above bit 63 are discarded, bit 7 is ignored. -/
theorem test_decu_permissive : responseAfter (.decu (List.replicate 9 0x80#8 ++ [0x03#8])) =
      some (decodedOk 0x8000000000000000#64) ∧
    responseAfter (.decu [0x01#8, 0x81#8]) = some (decodedOk 129) := by decide

/-- 95_test_vectors 2.4: eleven bytes are too long, whatever they are; ten are not. -/
theorem test_decu_length : responseAfter (.decu (List.replicate 11 0x00#8)) = some overflowResponse ∧
    responseAfter (.decu (List.replicate 9 0x80#8 ++ [0x01#8])) = some (decodedOk 0x8000000000000000#64) := by decide

/-- 95_test_vectors 1.1, vectors 7 and 8. -/
theorem test_decs_literal : responseAfter (.decs [0xC0#8, 0xBB#8, 0x78#8]) = some (decodedOk (trunc64 (-123456))) ∧
    responseAfter (.decs [0x9B#8, 0xF1#8, 0x59#8]) = some (decodedOk (trunc64 (-624485))) := by decide

/-- 95_test_vectors 2.4 and 2.5: eleven bytes; ten bytes with the sign bit clear and bit 63 set. -/
theorem test_decs_length : responseAfter (.decs (List.replicate 10 0xFF#8 ++ [0x7F#8])) = some overflowResponse ∧
    responseAfter (.decs (List.replicate 9 0xFF#8 ++ [0x01#8])) = some (decodedOk (trunc64 (-1))) := by decide

/-- 95_test_vectors 2.6: the source software's settings give 64 no padding group and reject nine bytes. -/
theorem test_source_software : encodeSigned Config.sourceSoftware 64 = [0x40#8] ∧
    decodeUnsigned Config.sourceSoftware (List.replicate 8 0x80#8 ++ [0x01#8]) = .lengthOverflow := by decide

/-- The words of the opcode table run as the first request after reset (log entry 4): ENCU 0, DECU, ENCS 0 and DECS of a
zero byte (95_test_vectors 2.1, 2.2; 41_decode R121). -/
theorem test_table_words_run_after_reset :
    step (State.reset.withFetchWord 8 0b00) = .next { pending := [], rsp := some (encodedOk [0x00#8]) } ∧
    step (State.reset.withFetchWord 8 0b01) = .next { pending := [], rsp := some (decodedOk 0) } ∧
    step (State.reset.withFetchWord 8 0b10) = .next { pending := [], rsp := some (encodedOk [0x00#8]) } ∧
    step (State.reset.withFetchWord 8 0b11) = .next { pending := [], rsp := some (decodedOk 0) } :=
  ⟨rfl, rfl, rfl, rfl⟩

/-! ### Witnesses: the hypotheses of the statements can be met -/

/-- A state with two requests outstanding and a response held. -/
def busy : State :=
  { pending := [⟨0b01#2, 0, [0x81#8, 0x01#8]⟩, ⟨0b10#2, 127, []⟩], rsp := some (decodedOk 7) }

theorem witness_StepRunsTheDecodedRequest :
    busy.pending = ⟨0b01#2, 0, [0x81#8, 0x01#8]⟩ :: [⟨0b10#2, 127, []⟩] ∧ State.reset.pending = [] := by decide

theorem witness_SelectBitsNameTheOperation :
    (0b10#2).getLsbD 0 = false ∧ (0b11#2).getLsbD 0 = true := by decide

theorem witness_OnlyTheResponseChanges : (∃ t, exec (.encu 0) busy = .next t) ∧ (∃ t, exec (.decs [0x7F#8]) busy = .next t) ∧
    (∃ t, exec (.encs 0) busy = .next t) ∧ (∃ t, exec (.decu [0x7F#8]) busy = .next t) ∧ ∃ t, step busy = .next t :=
  ⟨⟨_, rfl⟩, ⟨_, rfl⟩, ⟨_, rfl⟩, ⟨_, rfl⟩, ⟨_, rfl⟩⟩

theorem witness_SignedValueIsSignExtension :
    [0x40#8] ≠ [] ∧ formSign [0x40#8] = true ∧ [0x3F#8] ≠ [] ∧ formSign [0x3F#8] = false := by decide

theorem witness_BitLengthLaws : 7 ∣ 7 ∧ bitlen 63 < 7 ∧ 7 ∣ 14 ∧ bitlen 64 < 14 ∧ asSigned64 (trunc64 (-1)) < 0 ∧
    asSigned64 0x8000000000000000#64 < 0 := by decide

theorem witness_ComplementAndNegation : 1 ≤ 1 ∧ 1 < 2 ^ 1 ∧ 127 < 2 ^ 7 ∧ formSign [0x40#8] = true ∧
    formSign (List.replicate 8 0x80#8 ++ [0x7F#8]) = true ∧ (List.replicate 8 0x80#8 ++ [0x7F#8]).length ≤ 9 := by decide

theorem witness_TwosComplementReading : (-2 ^ 63 : Int) ≤ -2 ^ 63 ∧ (-2 ^ 63 : Int) < 2 ^ 63 ∧ (-2 ^ 63 : Int) ≤ 2 ^ 63 - 1 ∧
    (2 ^ 63 - 1 : Int) < 2 ^ 63 := by decide

theorem witness_EncuPeelsSevenBitsAtATime : (127#64).toNat < 128 ∧ 128 ≤ (128#64).toNat := by decide

theorem witness_EncuResultProperties : (1 : Word) ≠ 0 ∧ (encodeUnsigned 0x8000000000000000#64).length = 10 := by decide

theorem witness_EncsOfNonnegativeDelegatesAndPads : 0 ≤ asSigned64 0 ∧ 0 ≤ asSigned64 0x7FFFFFFFFFFFFFFF#64 ∧
    (0x40#8).getLsbD 6 = true ∧ (0x3F#8).getLsbD 6 = false ∧ 2 ^ (7 * 1 - 1) ≤ (64#64).toNat ∧ (64#64).toNat < 2 ^ (7 * 1) ∧
    2 ^ (7 * 9 - 1) ≤ (0x7FFFFFFFFFFFFFFF#64).toNat ∧ (0x7FFFFFFFFFFFFFFF#64).toNat < 2 ^ (7 * 9) := by decide

theorem witness_EncsOfNegativeEmitsTheComplement :
    (asSigned64 (trunc64 (-64)) < 0 ∧ ((64 : Nat) : Int) = -asSigned64 (trunc64 (-64)) ∧ 14 = 7 * (bitlen 64 / 7 + 1) ∧
      0x3FC0 = 2 ^ 14 - 64) ∧
    (asSigned64 0x8000000000000000#64 < 0 ∧ ((2 ^ 63 : Nat) : Int) = -asSigned64 0x8000000000000000#64 ∧
      70 = 7 * (bitlen (2 ^ 63) / 7 + 1) ∧ 0x3F8000000000000000 = 2 ^ 70 - 2 ^ 63) := by decide

theorem witness_EncsResultProperties : 9 < (encodeSigned Config.core 0x8000000000000000#64).length ∧ 6 < 7 := by decide

theorem witness_EncsOfMostNegativeAndTheSeventyBitWidth : asSigned64 (trunc64 (-1)) < 0 ∧
    asSigned64 (trunc64 (-2 ^ 62)) ≤ -2 ^ 62 ∧ asSigned64 0x8000000000000000#64 ≤ -2 ^ 62 := by decide

theorem witness_EncsIsNotMinimalAtNineValues : (1 ≤ 1 ∧ 1 ≤ 9 ∧ 9 ≤ 9) ∧ asSigned64 (trunc64 (-1)) < 0 ∧
    ∀ k : Nat, 1 ≤ k → k ≤ 9 → asSigned64 (trunc64 (-1)) ≠ -2 ^ (7 * k - 1) := by
  refine ⟨by decide, by decide, fun k h1 h9 => ?_⟩
  interval_cases k <;> decide

theorem witness_LengthsOfEncodedForms : (2 ≤ 2 ∧ 2 ≤ 10 ∧ 10 ≤ 10) ∧ (2 ≤ 9 ∧ 9 ≤ 9) ∧
    0 ≤ asSigned64 0x7FFFFFFFFFFFFFFF#64 := by decide

theorem witness_TenIterationsSuffice : 10 ≤ 10 := by decide

/-- Sequences of 0, 1, 9, 10 and 11 bytes, the tenth byte without a bit above bit 63: for the statements about DECU and
DECS whose clauses are bounded by length (R110, R111, R115, R123, R143, R184). -/
theorem witness_decode_lengths : ([] : List Byte) = [] ∧ 1 ≤ [0x00#8].length ∧ [0x00#8].length ≤ 9 ∧
    (List.replicate 8 0x80#8).length ≤ 8 ∧ 9 ≤ (List.replicate 9 0x80#8).length ∧ (List.replicate 9 0x80#8).length ≤ 9 ∧
    (List.replicate 10 0x01#8).length = 10 ∧ 10 < (List.replicate 11 0x80#8).length := by decide

theorem witness_DecuGivesTheTruncatedUnsignedValue :
    ∀ j : Nat, 1 ≤ j → j ≤ 6 → ((List.replicate 10 0x01#8)[9]'(by decide)).getLsbD j = false := by
  intro j h1 h6
  interval_cases j <;> decide

theorem witness_LengthCheck : Encodes (.encu 0x100000000000000#64) (List.replicate 8 0x80#8 ++ [0x01#8]) ∧
    9 ≤ (List.replicate 8 0x80#8 ++ [0x01#8]).length ∧
    Encodes (.encs 0x80000000000000#64) (List.replicate 7 0x80#8 ++ [0xC0#8, 0x00#8]) ∧
    9 ≤ (List.replicate 7 0x80#8 ++ [0xC0#8, 0x00#8]).length :=
  ⟨fun _ => rfl, by decide, fun _ => rfl, by decide⟩

theorem witness_TenByteDecodes : (List.replicate 9 0x80#8).length = 9 ∧ (0x7E#8).getLsbD 0 = (0x40#8).getLsbD 0 ∧
    (Encodes (.encs 0x8000000000000000#64) (List.replicate 9 0x80#8 ++ [0x7F#8])) ∧
    (List.replicate 9 0x80#8 ++ [0x7F#8]).length = 10 :=
  ⟨by decide, by decide, fun _ => rfl, by decide⟩

theorem witness_DecodeIgnoresContinuationBits : [0x01#8, 0x81#8].map payload = [0x81#8, 0x01#8].map payload := by decide

theorem witness_NonMinimalFormsAreAccepted : [0x3F#8] ≠ [] ∧ [0x3F#8].length ≤ 9 ∧ payload 0x80#8 = 0x00#7 ∧
    formSign [0x3F#8] = false ∧ (List.replicate 9 0x40#8).length ≤ 9 ∧ payload 0x7F#8 = 0x7F#7 ∧
    formSign (List.replicate 9 0x40#8) = true := by decide

theorem witness_DecsWithSignClearIsDecu : formSign [0x3F#8] = false ∧ formSign (List.replicate 9 0x3F#8) = false ∧
    (List.replicate 9 0x3F#8).length ≤ 9 := by decide

theorem witness_DecsWithSignSetNegatesTheComplement :
    (formSign [0x40#8] = true ∧ 7 = bitlen (unsignedValue [0x40#8]) ∧ 64 = maskedNot 7 (unsignedValue [0x40#8]) + 1) ∧
    (formSign (List.replicate 10 0x40#8) = true ∧ (List.replicate 10 0x40#8).length ≤ 10) := by decide

theorem witness_DecodeWritesValueOrStatusAlone : [0x00#8] ≠ [] ∧ (List.replicate 10 0x00#8).length ≤ 10 ∧
    10 < (List.replicate 11 0x00#8).length ∧ (0b01#2 = 0b01#2 ∨ 0b01#2 = 0b11#2) ∧ (0b11#2 = 0b01#2 ∨ 0b11#2 = 0b11#2) := by
  decide

theorem witness_EncodeOfDecode_unsigned :
    (ChainWellFormed [0x80#8, 0x01#8] ∧ minimalUnsigned [0x80#8, 0x01#8] = true) ∧
    (ChainWellFormed (List.replicate 9 0x80#8 ++ [0x01#8]) ∧ (List.replicate 9 0x80#8 ++ [0x01#8]).length ≤ 10 ∧
      minimalUnsigned (List.replicate 9 0x80#8 ++ [0x01#8]) = true ∧
      (List.replicate 9 0x80#8 ++ [0x01#8]).getLast? = some 0x01#8) := by decide

theorem witness_EncodeOfDecode_signed :
    (ChainWellFormed (List.replicate 9 0xFF#8 ++ [0x00#8]) ∧ (List.replicate 9 0xFF#8 ++ [0x00#8]).length ≤ 10 ∧
      minimalSigned (List.replicate 9 0xFF#8 ++ [0x00#8]) = true ∧
      (List.replicate 9 0xFF#8 ++ [0x00#8]).getLast? = some 0x00#8) ∧
    ∀ k : Nat, 1 ≤ k → k ≤ 9 → List.replicate 9 0xFF#8 ++ [0x00#8] ≠ List.replicate (k - 1) 0x80#8 ++ [0x40#8] := by
  refine ⟨by decide, fun k h1 h9 => ?_⟩
  interval_cases k <;> decide

theorem witness_EncodeOfDecode_outputs : Encodes (.encu 0) [0x00#8] ∧ Encodes (.encs (trunc64 (-64))) [0xC0#8, 0x7F#8] :=
  ⟨fun _ => rfl, fun _ => rfl⟩

theorem witness_EncodingIsMinimalWithNineExceptions :
    (1 ≤ 1 ∧ 1 ≤ 9 ∧ asSigned64 (trunc64 (-64)) = -2 ^ (7 * 1 - 1)) ∧
    (1 ≤ 9 ∧ 9 ≤ 9 ∧ asSigned64 (trunc64 (-2 ^ 62)) = -2 ^ (7 * 9 - 1)) ∧
    0 < asSigned64 64 ∧ Encodes (.encs 64) ([0xC0#8] ++ [0x00#8]) :=
  ⟨by decide, by decide, by decide, fun _ => rfl⟩

theorem witness_EveryRequestInTheDomainHasOneResponse : (decode ⟨0b01#2, 0, [0x80#8]⟩).wf = true ∧
    (decode ⟨0b10#2, 0, []⟩).wf = true ∧ Encodes (.encu 5) [0x05#8] ∧ Encodes (.encs 5) [0x05#8] :=
  ⟨by decide, by decide, fun _ => rfl, fun _ => rfl⟩

theorem witness_EncoderOutputsFitEveryCapacity : Encodes (.encu 0xFFFFFFFFFFFFFFFF#64) (List.replicate 9 0xFF#8 ++ [0x01#8]) ∧
    Encodes (.encs 0x7FFFFFFFFFFFFFFF#64) (List.replicate 9 0xFF#8 ++ [0x00#8]) :=
  ⟨fun _ => rfl, fun _ => rfl⟩

theorem witness_NotImplementedNeverAppears : (∃ t, exec (decode ⟨0b11#2, 0, List.replicate 11 0x80#8⟩) busy = .next t) ∧
    (∃ t, exec (decode ⟨0b11#2, 0, [0x80#8]⟩) busy = .next t) ∧ [0x80#8] ≠ [] :=
  ⟨⟨_, rfl⟩, ⟨_, rfl⟩, by decide⟩

theorem witness_ErrorDoesNotOutliveItsTransaction : 10 < (List.replicate 11 0x80#8).length ∧
    (Instr.decs (List.replicate 11 0x80#8) = .decu (List.replicate 11 0x80#8) ∨
      Instr.decs (List.replicate 11 0x80#8) = .decs (List.replicate 11 0x80#8)) := by decide

theorem witness_TransactionsAreIndependent :
    (∀ x ∈ [(⟨0b01#2, 0, [0x81#8, 0x01#8]⟩ : Request)], (decode x).wf = true) ∧ (decode ⟨0b10#2, 127, []⟩).wf = true ∧
    busy.pending = [⟨0b01#2, 0, [0x81#8, 0x01#8]⟩] ++ ⟨0b10#2, 127, []⟩ :: [] := by decide

theorem witness_RequestsInTheDomainNeverStopTheMachine : busy.InDomain := by
  unfold State.InDomain; decide

/-- A negative value whose form has one byte, and the least one whose form has nine. -/
theorem witness_SignednessMustMatch :
    (asSigned64 (trunc64 (-1)) < 0 ∧ Encodes (.encs (trunc64 (-1))) [0x7F#8] ∧ [0x7F#8].length ≤ 9) ∧
    (asSigned64 (trunc64 (-2 ^ 62 + 1)) < 0 ∧
      Encodes (.encs (trunc64 (-2 ^ 62 + 1))) ([0x81#8] ++ List.replicate 7 0x80#8 ++ [0x40#8]) ∧
      ([0x81#8] ++ List.replicate 7 0x80#8 ++ [0x40#8]).length ≤ 9) :=
  ⟨⟨by decide, fun _ => rfl, by decide⟩, by decide, fun _ => rfl, by decide⟩

theorem witness_InterworkingWithTheSourceSettings : (2 : Int) ^ (7 * 1 - 1) ≤ asSigned64 64 ∧ asSigned64 64 < 2 ^ (7 * 1) ∧
    (2 : Int) ^ (7 * 9 - 1) ≤ asSigned64 0x7FFFFFFFFFFFFFFF#64 ∧ asSigned64 0x7FFFFFFFFFFFFFFF#64 < 2 ^ (7 * 9) := by decide

theorem witness_EveryStepKeepsTheResponseLegal : busy.Inv ∧ ∃ t, step busy = .next t := by
  refine ⟨fun r h => .inl ⟨7, ?_⟩, ⟨_, rfl⟩⟩
  exact (Option.some.inj h).symm

end Sys2Proof.Tests
end

namespace Sys2Proof.Machine

/-! ### The lengths of the encoders' outputs and the capacities of 00_scope R7 -/

theorem unsignedLength_le (v : Word) : unsignedLength v.toNat ≤ 10 := by
  have hbits := bitlen_word_le v
  unfold unsignedLength; omega

theorem encodeUnsigned_length (v : Word) : (encodeUnsigned v).length = unsignedLength v.toNat := by
  rw [encodeUnsigned_eq, emitGroups_length]

theorem encodeSigned_length (v : Word) : (encodeSigned Config.core v).length = signedLength v := by
  rw [encodeSigned_eq _ core_spad, emitGroups_length]

theorem encodeUnsigned_length_le (v : Word) : (encodeUnsigned v).length ≤ 10 :=
  (encodeUnsigned_length v).trans_le (unsignedLength_le v)

theorem encodeSigned_length_le (v : Word) : (encodeSigned Config.core v).length ≤ 10 :=
  (encodeSigned_length v).trans_le (signedLength_le v)

/-- `INCAP ≥ MAXLEN` (00_scope R7): all that is known of the open `INCAP`. -/
theorem core_maxlen_le_incap : Config.core.maxlen ≤ Config.core.incap :=
  Nat.le_add_right 10 Config.incapExtra

/-- Settles O48: both encoders emit at most ten groups, and ten bytes are `OUTCAP`, `MAXLEN` and at most `INCAP`. -/
theorem encoderOutputsFitEveryCapacity : Obligations.EncoderOutputsFitEveryCapacity := by
  intro v i q hi hq
  have hlen : q.length ≤ 10 := by
    obtain rfl | rfl := hi
    · exact hq.unique (encodes_encu v) ▸ encodeUnsigned_length_le v
    · exact hq.unique (encodes_encs v) ▸ encodeSigned_length_le v
  exact ⟨hlen, hlen, hlen.trans core_maxlen_le_incap⟩

end Sys2Proof.Machine

namespace Sys2Proof.Machine

/-! ### The select codes (30_encoding R69): the decoded operation does not hold the other operand field -/

@[simp] theorem decode_select_encu (v : Word) (q : List Byte) : decode ⟨0b00#2, v, q⟩ = .encu v := by
  simp [decode]

@[simp] theorem decode_select_decu (v : Word) (q : List Byte) : decode ⟨0b01#2, v, q⟩ = .decu q := by
  simp [decode]

@[simp] theorem decode_select_encs (v : Word) (q : List Byte) : decode ⟨0b10#2, v, q⟩ = .encs v := by
  simp [decode]

@[simp] theorem decode_select_decs (v : Word) (q : List Byte) : decode ⟨0b11#2, v, q⟩ = .decs q := by
  simp [decode]

/-! ### The responses of 10_state R22 are legal -/

theorem legal_decodedOk (v : Word) : (decodedOk v).Legal := .inl ⟨v, rfl⟩

theorem legal_overflowResponse : overflowResponse.Legal := .inr (.inr rfl)

/-- A form made of the 1 to 10 lowest groups of a number. -/
theorem legal_encodedOk_emitGroups {n : Nat} (hpos : 1 ≤ n) (hle : n ≤ 10) (t : Nat) :
    (encodedOk (emitGroups n t)).Legal := by
  refine .inr (.inl ⟨_, rfl, ?_, ?_, chain_emitGroups hpos t⟩)
  · rwa [emitGroups_length]
  · rwa [emitGroups_length]

theorem legal_encodeUnsigned (v : Word) : (encodedOk (encodeUnsigned v)).Legal := by
  rw [encodeUnsigned_eq]
  exact legal_encodedOk_emitGroups (unsignedLength_pos _) (unsignedLength_le v) _

theorem legal_encodeSigned (v : Word) : (encodedOk (encodeSigned Config.core v)).Legal := by
  rw [encodeSigned_eq _ core_spad]
  exact legal_encodedOk_emitGroups (signedLength_pos v) (signedLength_le v) _

/-! ### What an operation and a step can do -/

/-- An operation gives one legal response from every state, or is refused in every state (10_state R20, R22). -/
theorem answers_legal_or_refuses (i : Instr) : (∃ a, a.Legal ∧ Answers i a) ∨ Refuses i := by
  cases i with
  | encu v => exact .inl ⟨_, legal_encodeUnsigned v, encodes_encu v⟩
  | encs v => exact .inl ⟨_, legal_encodeSigned v, encodes_encs v⟩
  | decu q =>
    obtain rfl | hq := eq_or_ne q []
    · exact .inr refuses_decu_nil
    obtain ⟨-, hdec, -⟩ | ⟨-, hover, -⟩ := decode_cases q hq
    · exact .inl ⟨_, legal_decodedOk _, hdec⟩
    · exact .inl ⟨_, legal_overflowResponse, hover⟩
  | decs q =>
    obtain rfl | hq := eq_or_ne q []
    · exact .inr refuses_decs_nil
    obtain ⟨-, -, hdec⟩ | ⟨-, -, hover⟩ := decode_cases q hq
    · exact .inl ⟨_, legal_decodedOk _, hdec⟩
    · exact .inl ⟨_, legal_overflowResponse, hover⟩

/-- An operation that completes has changed the response alone, to a legal one. -/
theorem exec_next {i : Instr} {s t : State} (h : exec i s = .next t) :
    ∃ a : Response, a.Legal ∧ t = { s with rsp := some a } := by
  obtain ⟨a, hlegal, hans⟩ | href := answers_legal_or_refuses i
  · exact ⟨a, hlegal, Host.Outcome.next.inj (h.symm.trans (hans s))⟩
  · cases h.symm.trans (href s)

/-- A step with a request outstanding takes that request away and gives a legal response. -/
theorem step_next_of_pending {s t : State} {r : Request} {rest : List Request} (hp : s.pending = r :: rest)
    (h : step s = .next t) : ∃ a : Response, a.Legal ∧ t = ⟨rest, some a⟩ :=
  exec_next ((step_of_pending hp).symm.trans h)

/-- A request just presented is the one the next step runs. -/
@[simp] theorem step_present (s : State) (r : Request) : step (s.present r) = exec (decode r) s :=
  step_of_pending (s.present_pending r)

/-! ### The statements of 10_state -/

/-- Settles O56: an idle step keeps the response, and any other gives a legal one. -/
theorem everyStepKeepsTheResponseLegal : Obligations.EveryStepKeepsTheResponseLegal := by
  intro s t hinv hstep
  cases hp : s.pending with
  | nil =>
    have hst : s = t := Host.Outcome.next.inj ((step_of_idle hp).symm.trans hstep)
    exact hst ▸ hinv
  | cons r rest =>
    obtain ⟨a, hlegal, rfl⟩ := step_next_of_pending hp hstep
    intro b hb
    exact Option.some.inj hb ▸ hlegal

/-- Settles O1: the operation a request decodes to answers alike, or is refused, in every state. -/
theorem firstTransactionAfterResetAnswersAsAnyOther :
    Obligations.FirstTransactionAfterResetAnswersAsAnyOther := by
  refine ⟨State.reset_rsp, fun r s => ?_⟩
  rw [step_present, step_present]
  obtain ⟨a, -, hans⟩ | href := answers_legal_or_refuses (decode r)
  · exact .inl ⟨a, hans State.reset, hans s⟩
  · exact .inr ⟨href State.reset, href s⟩

/-- Settles O2, by the two cases of taking a request. -/
theorem stepRunsTheDecodedRequest : Obligations.StepRunsTheDecodedRequest :=
  ⟨fun _ _ _ hp => step_of_pending hp, fun _ hp => step_of_idle hp⟩

/-- Settles O7: requests that differ in the unused field alone decode to the same operation. -/
theorem unusedRequestFieldsHaveNoEffect : Obligations.UnusedRequestFieldsHaveNoEffect := by
  intro v v' q q' s
  refine ⟨?encu, ?decu, ?encs, ?decs⟩
  case encu => simp only [step_present, decode_select_encu]
  case decu => simp only [step_present, decode_select_decu]
  case encs => simp only [step_present, decode_select_encs]
  case decs => simp only [step_present, decode_select_decs]

/-- Settles O8, for an operation and for a step that takes a request. -/
theorem onlyTheResponseChanges : Obligations.OnlyTheResponseChanges := by
  refine ⟨fun i s t h => ?exec, fun s t r rest hp h => ?step⟩
  case exec =>
    obtain ⟨a, -, rfl⟩ := exec_next h
    rfl
  case step =>
    obtain ⟨a, -, rfl⟩ := step_next_of_pending hp h
    rfl

/-- Settles O57: reset holds no response that could be illegal. -/
theorem resetMeetsTheInvariant : Obligations.ResetMeetsTheInvariant := by
  intro r hr
  rw [State.reset_rsp] at hr
  exact absurd hr (Option.some_ne_none r).symm

end Sys2Proof.Machine

namespace Sys2Proof.Machine

/-! ### The domain (42_laws R141): every request in it is answered -/

@[simp] theorem wf_decu_iff (q : List Byte) : (Instr.decu q).wf = true ↔ q ≠ [] := by
  simp [Instr.wf]

@[simp] theorem wf_decs_iff (q : List Byte) : (Instr.decs q).wf = true ↔ q ≠ [] := by
  simp [Instr.wf]

/-- In the domain no operation is refused: the only refusal is a decode of no bytes (41_decode R120). -/
theorem answers_of_wf {i : Instr} (h : i.wf = true) : ∃ a : Response, Answers i a := by
  cases i with
  | encu v => exact ⟨_, encodes_encu v⟩
  | encs v => exact ⟨_, encodes_encs v⟩
  | decu q =>
    obtain ⟨-, hdec, -⟩ | ⟨-, hover, -⟩ := decode_cases q ((wf_decu_iff q).mp h)
    · exact ⟨_, hdec⟩
    · exact ⟨_, hover⟩
  | decs q =>
    obtain ⟨-, -, hdec⟩ | ⟨-, -, hover⟩ := decode_cases q ((wf_decs_iff q).mp h)
    · exact ⟨_, hdec⟩
    · exact ⟨_, hover⟩

/-! ### A transaction among others (20_memory R49) -/

/-- A step that takes an answered request removes it and holds its response. -/
theorem step_of_pending_answers {s : State} {r : Request} {rest : List Request} {a : Response}
    (hp : s.pending = r :: rest) (ha : Answers (decode r) a) : step s = .next ⟨rest, some a⟩ :=
  (step_of_pending hp).trans (ha _)

/-- Requests in the domain that wait before an answered one are all taken, and leave no trace in its response. -/
theorem run_past_requests_in_domain {r : Request} {a : Response} (ha : Answers (decode r) a)
    (before after : List Request) (s : State) (hdom : ∀ x ∈ before, (decode x).wf = true)
    (hp : s.pending = before ++ r :: after) :
    Host.Core.run Sys2Proof.core (before.length + 1) s = Host.Outcome.next (State.mk after (some a)) := by
  induction before generalizing s with
  | nil => exact (core_run_succ 0 (step_of_pending_answers hp ha)).trans (core_run_zero _)
  | cons x before ih =>
    obtain ⟨hx, hbefore⟩ := List.forall_mem_cons.mp hdom
    obtain ⟨b, hb⟩ := answers_of_wf hx
    exact (core_run_succ _ (step_of_pending_answers hp hb)).trans (ih _ hbefore rfl)

/-- Settles O51: the request has one answer in every state, from reset and after the requests before it alike. -/
theorem transactionsAreIndependent : Obligations.TransactionsAreIndependent := by
  intro before after r s hdom hr hp
  obtain ⟨a, ha⟩ := answers_of_wf hr
  exact ⟨a, (step_present State.reset r).trans (ha _), run_past_requests_in_domain ha before after s hdom hp⟩

end Sys2Proof.Machine

namespace Sys2Proof.Machine

/-! ### The select and the opcode table (30_encoding R68, R69) -/

/-- The select is one of the four codes of the table. -/
theorem select_cases (op : BitVec 2) : op = 0b00#2 ∨ op = 0b01#2 ∨ op = 0b10#2 ∨ op = 0b11#2 := by
  revert op; decide

/-- Settles O3, at each of the four codes. -/
theorem selectBitsNameTheOperation : Obligations.SelectBitsNameTheOperation := by
  intro op v q
  obtain rfl | rfl | rfl | rfl := select_cases op
  · simp [Instr.isSigned, Instr.isDecode]
  · simp [Instr.isSigned, Instr.isDecode]
  · simp [Instr.isSigned, Instr.isDecode]
  · simp [Instr.isSigned, Instr.isDecode]

/-- Settles O4, at each of the four codes: the other three rows of the table have another pattern. -/
theorem everySelectMatchesExactlyOneTableRow : Obligations.EverySelectMatchesExactlyOneTableRow := by
  rintro ⟨op, v, q⟩
  obtain rfl | rfl | rfl | rfl := select_cases op
  · simp [opcodeTable, TableRow.accepts, Instr.mnemonic]
  · simp [opcodeTable, TableRow.accepts, Instr.mnemonic]
  · simp [opcodeTable, TableRow.accepts, Instr.mnemonic]
  · simp [opcodeTable, TableRow.accepts, Instr.mnemonic]

/-- Settles O5: each word is evaluated. -/
theorem tableWordsDecode : Obligations.TableWordsDecode :=
  ⟨rfl, rfl, rfl, rfl, rfl⟩

/-- The request of an operation decodes to that operation (30_encoding R69). -/
@[simp] theorem decode_encode (i : Instr) : decode (encode i) = i := by
  cases i with
  | encu v => exact decode_select_encu v []
  | decu q => exact decode_select_decu 0 q
  | encs v => exact decode_select_encs v []
  | decs q => exact decode_select_decs 0 q

/-- The select of a decoded request is recovered, though its unused field is not. -/
theorem encode_decode_op (r : Request) : (encode (decode r)).op = r.op := by
  obtain ⟨op, v, q⟩ := r
  obtain rfl | rfl | rfl | rfl := select_cases op
  · rw [decode_select_encu]; rfl
  · rw [decode_select_decu]; rfl
  · rw [decode_select_encs]; rfl
  · rw [decode_select_decs]; rfl

/-- Settles O6, at each operation and at each of the four codes. -/
theorem requestRoundTrip : Obligations.RequestRoundTrip :=
  ⟨decode_encode, encode_decode_op⟩

/-! ### The encoded byte (30_encoding R60) -/

theorem continuation_iff (b : Byte) : continuation b = true ↔ 2 ^ 7 ≤ b.toNat := by
  revert b; decide

theorem signBit_iff (b : Byte) : signBit b = true ↔ 2 ^ 6 ≤ b.toNat % 2 ^ 7 := by
  rw [signBit_eq_payload, group_sign_iff, payload_toNat]

theorem encodedByte_toNat (more : Bool) (g : Group) :
    (encodedByte more g).toNat = (if more then 2 ^ 7 else 0) + g.toNat := by
  revert more g; decide

/-- Settles O9, field by field. -/
theorem encodedByteFields : Obligations.EncodedByteFields :=
  ⟨fun b => ⟨continuation_iff b, payload_toNat b, signBit_iff b⟩, encodedByte_toNat⟩

/-! ### The unsigned value as a sum and as an accumulation (30_encoding R62) -/

theorem unsignedValue_eq_sum (s : List Byte) :
    unsignedValue s = ∑ i : Fin s.length, (payload s[i]).toNat * 2 ^ (7 * (i : Nat)) := by
  induction s with
  | nil => rfl
  | cons b s ih =>
    rw [unsignedValue_cons, ih, Finset.mul_sum]
    simp only [List.length_cons, Fin.sum_univ_succ]
    congr 1
    · simp
    · exact Finset.sum_congr rfl fun i _ => by
        simp only [Fin.getElem_fin, Fin.val_succ, List.getElem_cons_succ]; ring

/-- On unbounded numbers the accumulation loses no bit, and each payload fills the bits shifted in. -/
theorem unsignedValue_eq_foldr (s : List Byte) :
    unsignedValue s = s.foldr (fun b acc => (acc <<< 7) ||| (payload b).toNat) 0 := by
  induction s with
  | nil => rfl
  | cons b s ih =>
    rw [List.foldr_cons, ← ih, ← Nat.shiftLeft_add_eq_or_of_lt (payload b).isLt, unsignedValue_cons,
      Nat.shiftLeft_eq]
    ring

/-- Settles O10: the sum, the bound and the two accumulations, each by induction on the sequence. -/
theorem unsignedValueIsTheWeightedSum : Obligations.UnsignedValueIsTheWeightedSum := fun s =>
  ⟨unsignedValue_eq_sum s, unsignedValue_lt s, unsignedValue_eq_foldr s, accumulate_eq s⟩

/-! ### The signed value (30_encoding R63) -/

/-- The sign bit of a form is bit `7n-1` of the `7n`-bit number `U(s)`. -/
theorem formSign_eq_testBit {s : List Byte} (hs : s ≠ []) :
    formSign s = (unsignedValue s).testBit (7 * s.length - 1) := by
  have hn : 0 < s.length := List.length_pos_iff.mpr hs
  have hlt : unsignedValue s < 2 ^ (7 * s.length - 1 + 1) := by
    rw [Nat.sub_add_cancel (by omega)]; exact unsignedValue_lt s
  rw [Bool.eq_iff_iff, formSign_iff hs]
  exact ⟨fun hge => Nat.testBit_of_two_pow_le_and_two_pow_add_one_gt hge hlt, Nat.ge_two_pow_of_testBit⟩

theorem signedValue_of_clear {s : List Byte} (h : formSign s = false) : signedValue s = unsignedValue s := by
  simp [signedValue, h]

theorem signedValue_of_set {s : List Byte} (h : formSign s = true) :
    signedValue s = (unsignedValue s : Int) - 2 ^ (7 * s.length) := by
  simp [signedValue, h]

/-- With the sign bit set no top bit of the `7n` is lost, so the bit-length is the width. -/
theorem bitlen_of_formSign {s : List Byte} (h : formSign s = true) : bitlen (unsignedValue s) = 7 * s.length := by
  have hs := ne_nil_of_formSign h
  have hn : 0 < s.length := List.length_pos_iff.mpr hs
  have hle := (bitlen_le_iff _ _).mpr (unsignedValue_lt s)
  have hge := (lt_bitlen_iff _ _).mpr ((formSign_iff hs).mp h)
  omega

/-- Complement, mask, add 1 and negate gives `S(s)` on the negative branch. -/
theorem signedValue_eq_neg_complement {s : List Byte} (h : formSign s = true) :
    signedValue s = -((maskedNot (bitlen (unsignedValue s)) (unsignedValue s) + 1 : Nat) : Int) := by
  have hlt := unsignedValue_lt s
  rw [bitlen_of_formSign h, maskedNot_add_one hlt, signedValue_of_set h]
  push_cast [hlt.le]
  ring

/-- Settles O11, by the two values of the sign bit. -/
theorem signedValueIsSignExtension : Obligations.SignedValueIsSignExtension := fun s hs =>
  ⟨formSign_eq_testBit hs, signedValue_eq_toInt hs, signedValue_of_clear,
    fun h => ⟨signedValue_of_set h, bitlen_of_formSign h, signedValue_eq_neg_complement h⟩, signExtended_eq s⟩

/-! ### The lengths of the encoded forms (30_encoding R64) -/

/-- `k` bytes hold the values below `2^(7k)`. -/
theorem unsignedLength_le_iff {k : Nat} (hk : 1 ≤ k) (v : Nat) : unsignedLength v ≤ k ↔ v < 2 ^ (7 * k) := by
  rw [← bitlen_le_iff, unsignedLength]; omega

/-- `k` bytes hold the magnitudes below `2^(7k-1)`, one bit being the sign. -/
theorem signedLength_le_iff {k : Nat} (hk : 1 ≤ k) (v : Word) :
    signedLength v ≤ k ↔ (asSigned64 v).natAbs < 2 ^ (7 * k - 1) := by
  rw [← bitlen_le_iff, signedLength, asSigned64]; omega

theorem unsignedLength_eq_one_iff (v : Nat) : unsignedLength v = 1 ↔ v ≤ 127 := by
  have hle := unsignedLength_le_iff le_rfl v
  have hpos := unsignedLength_pos v
  omega

theorem unsignedLength_eq_iff {k : Nat} (hk : 2 ≤ k) (v : Nat) :
    unsignedLength v = k ↔ 2 ^ (7 * (k - 1)) ≤ v ∧ v < 2 ^ (7 * k) := by
  rw [← unsignedLength_le_iff (by omega), ← not_lt, ← unsignedLength_le_iff (by omega)]
  omega

theorem signedLength_eq_one_iff (v : Word) : signedLength v = 1 ↔ (asSigned64 v).natAbs ≤ 63 := by
  have hle := signedLength_le_iff le_rfl v
  have hpos := signedLength_pos v
  omega

theorem signedLength_eq_iff {k : Nat} (hk : 2 ≤ k) (v : Word) :
    signedLength v = k ↔ 2 ^ (7 * k - 8) ≤ (asSigned64 v).natAbs ∧ (asSigned64 v).natAbs ≤ 2 ^ (7 * k - 1) - 1 := by
  have hlow : 7 * k - 8 = 7 * (k - 1) - 1 := by omega
  rw [Nat.le_sub_one_iff_lt (by positivity), ← signedLength_le_iff (by omega), hlow, ← not_lt,
    ← signedLength_le_iff (by omega)]
  omega

/-- The last row of the signed table has no upper bound: every 64-bit value fits in ten bytes. -/
theorem signedLength_eq_ten_iff (v : Word) : signedLength v = 10 ↔ 2 ^ 62 ≤ (asSigned64 v).natAbs := by
  rw [← not_lt, ← signedLength_le_iff (k := 9) (by omega)]
  have hle := signedLength_le v
  omega

/-- With `SPAD = 0` a nonnegative value has its unsigned form (40_encode R95). -/
theorem encodeSigned_of_nonneg_of_not_spad {cfg : Config} (hc : cfg.spad = false) {v : Word} (h : 0 ≤ asSigned64 v) :
    encodeSigned cfg v = encodeUnsigned v := by
  rw [encodeSigned, if_pos h, hc, padSign]
  split <;> rfl

/-- Settles O24: both tables read off the length formulas. -/
theorem lengthsOfEncodedForms : Obligations.LengthsOfEncodedForms := by
  intro v
  refine ⟨_, _, encodes_encu v, encodes_encs v, ?_⟩
  rw [encodeUnsigned_length, encodeSigned_length]
  refine ⟨unsignedLength_pos _, unsignedLength_le v, signedLength_pos v, signedLength_le v, rfl, rfl,
    unsignedLength_eq_one_iff _, fun k h2 _ => unsignedLength_eq_iff h2 _, signedLength_eq_one_iff v,
    fun k h2 _ => signedLength_eq_iff h2 v, signedLength_eq_ten_iff v, fun h => ?_⟩
  rw [encodeSigned_of_nonneg_of_not_spad rfl h, encodeUnsigned_length]

/-! ### The encoders' outputs: their chain and what they decode to (42_laws R136, R138) -/

theorem chain_encodeUnsigned (v : Word) : ChainWellFormed (encodeUnsigned v) := by
  rw [encodeUnsigned_eq]
  exact chain_emitGroups (unsignedLength_pos _) _

theorem chain_encodeSigned (v : Word) : ChainWellFormed (encodeSigned Config.core v) := by
  rw [encodeSigned_eq _ core_spad]
  exact chain_emitGroups (signedLength_pos v) _

theorem unsignedValue_encodeUnsigned (v : Word) : unsignedValue (encodeUnsigned v) = v.toNat := by
  rw [encodeUnsigned_eq, unsignedValue_emitGroups, Nat.mod_eq_of_lt (lt_two_pow_unsignedLength _)]

/-- Emitting `n` groups of an integer's two's-complement pattern keeps its residue modulo `2^(7n)`, and the sign bit
picks the residue nearest to zero. -/
theorem signedValue_emitGroups {n w : Nat} (hn : 1 ≤ n) (hw : 7 * n ≤ w) (x : Int) :
    signedValue (emitGroups n (x % 2 ^ w).toNat) = x.bmod (2 ^ (7 * n)) := by
  have hd : (2 : Int) ^ (7 * n) ∣ 2 ^ w := pow_dvd_pow _ hw
  have hpos : (0 : Int) ≤ x % 2 ^ w := Int.emod_nonneg _ (by positivity)
  rw [signedValue_eq_toInt (chain_emitGroups hn _).1, unsignedValue_emitGroups, emitGroups_length,
    BitVec.toInt_ofNat']
  push_cast [Int.toNat_of_nonneg hpos]
  rw [Int.emod_emod_of_dvd _ hd]
  exact_mod_cast Int.emod_bmod x (2 ^ (7 * n))

/-- ENCS emits a group more than the magnitude's bits, so the sign has its place and the value is kept. -/
theorem signedValue_encodeSigned (v : Word) : signedValue (encodeSigned Config.core v) = asSigned64 v := by
  have hpos := signedLength_pos v
  have hle := signedLength_le v
  have hmag : v.toInt.natAbs < 2 ^ (7 * signedLength v - 1) := (signedLength_le_iff hpos v).mp le_rfl
  have hwidth : 2 ^ (7 * signedLength v) = 2 * 2 ^ (7 * signedLength v - 1) := by
    rw [← pow_succ', Nat.sub_add_cancel (by omega)]
  rw [encodeSigned_eq _ core_spad, signedValue_emitGroups hpos (by omega)]
  exact Int.bmod_eq_of_le_mul_two (by omega) (by omega)

theorem decodes_decu_encodeUnsigned (v : Word) : Decodes (.decu (encodeUnsigned v)) v := by
  have h := decodes_decu (chain_encodeUnsigned v).1 (encodeUnsigned_length_le v)
  rwa [unsignedValue_encodeUnsigned, BitVec.ofNat_toNat, BitVec.setWidth_eq] at h

theorem decodes_decs_encodeSigned (v : Word) : Decodes (.decs (encodeSigned Config.core v)) v := by
  have h := decodes_decs (chain_encodeSigned v).1 (encodeSigned_length_le v)
  rwa [signedValue_encodeSigned, asSigned64, trunc64, BitVec.ofInt_toInt] at h

/-! ### The framing convention (30_encoding R67) -/

/-- Without its first byte a longer chain is still a chain. -/
theorem ChainWellFormed.tail {b c : Byte} {s : List Byte} (h : ChainWellFormed (b :: c :: s)) :
    continuation b = true ∧ ChainWellFormed (c :: s) := by
  obtain ⟨-, hbit⟩ := h
  refine ⟨(hbit 0 (by simp)).trans (by simp), List.cons_ne_nil _ _, fun i hi => ?_⟩
  exact (hbit (i + 1) (Nat.succ_lt_succ hi)).trans (by simp)

theorem ChainWellFormed.single {b : Byte} (h : ChainWellFormed [b]) : continuation b = false :=
  (h.2 0 (by simp)).trans (by simp)

/-- A well-formed chain is cut out whole, whatever follows it. -/
theorem cutForm_chain_append {q : List Byte} (h : ChainWellFormed q) (rest : List Byte) :
    cutForm (q ++ rest) = some (q, rest) := by
  induction q with
  | nil => exact absurd rfl h.1
  | cons b s ih =>
    cases s with
    | nil => simp [cutForm, h.single]
    | cons c s =>
      obtain ⟨hb, hs⟩ := h.tail
      rw [List.cons_append, cutForm, if_pos hb, ih hs]
      rfl

/-- Settles O47: encoder outputs are well-formed chains, and both decodes undo their encode. -/
theorem framingConventionCutsEncoderOutputs : Obligations.FramingConventionCutsEncoderOutputs :=
  ⟨fun u rest => ⟨_, encodes_encu u, cutForm_chain_append (chain_encodeUnsigned u) rest, decodes_decu_encodeUnsigned u⟩,
   fun i rest => ⟨_, encodes_encs i, cutForm_chain_append (chain_encodeSigned i) rest, decodes_decs_encodeSigned i⟩⟩

end Sys2Proof.Machine

namespace Sys2Proof.Machine

/-! ### The bytes of emitted groups (40_encode R92, R96, R97) -/

theorem encodedByte_eq_or (more : Bool) (g : Group) :
    encodedByte more g = (if more then 0x80#8 else 0x00#8) ||| g.setWidth 8 := by
  revert more g; decide

theorem payload_getLsbD (b : Byte) {j : Nat} (hj : j < 7) : (payload b).getLsbD j = b.getLsbD j := by
  simp [payload, hj]

theorem group_getLsbD (t i : Nat) {j : Nat} (hj : j < 7) : (group t i).getLsbD j = t.testBit (7 * i + j) := by
  rw [group, BitVec.getLsbD_ofNat, Nat.testBit_shiftRight, decide_eq_true hj, Bool.true_and]

/-- Byte `i` is group `i` of the number, with bit 7 set on all but the last. -/
theorem emitGroups_getElem_eq_or (n t i : Nat) (h : i < (emitGroups n t).length) :
    (emitGroups n t)[i] = (if i + 1 < (emitGroups n t).length then 0x80#8 else 0x00#8) |||
      BitVec.ofNat 8 (t / 2 ^ (7 * i) % 2 ^ 7) := by
  rw [emitGroups_getElem, encodedByte_eq_or, ← BitVec.ofNat_toNat, group_toNat, emitGroups_length]
  simp only [decide_eq_true_eq]

/-- Bits 6 to 0 of byte `i` are bits `7i+6` to `7i` of the number. -/
theorem emitGroups_getLsbD (n t i : Nat) (h : i < (emitGroups n t).length) {j : Nat} (hj : j < 7) :
    (emitGroups n t)[i].getLsbD j = t.testBit (7 * i + j) := by
  rw [emitGroups_getElem, ← payload_getLsbD _ hj, payload_encodedByte, group_getLsbD t i hj]

/-- The last of `n + 1` groups that hold a number is what lies above the first `n`. -/
theorem group_last_toNat {n t : Nat} (ht : t < 2 ^ (7 * (n + 1))) : (group t n).toNat = t / 2 ^ (7 * n) := by
  rw [group_toNat, Nat.mod_eq_of_lt]
  rwa [Nat.div_lt_iff_lt_mul (by positivity), ← pow_add, Nat.add_comm]

/-! ### ENCU peels seven bits at a time (40_encode R90) -/

theorem group_zero_toNat (v : Word) : group v.toNat 0 = payload (v.setWidth 8) := by
  apply BitVec.eq_of_toNat_eq
  rw [group_toNat, payload_toNat, BitVec.toNat_setWidth]
  omega

/-- From two bytes on, a shift by 7 drops one byte. -/
theorem unsignedLength_of_ge {v : Nat} (h : 128 ≤ v) : unsignedLength v = unsignedLength (v / 2 ^ 7) + 1 := by
  have hpos := unsignedLength_pos (v / 2 ^ 7)
  have htwo : ¬ unsignedLength v ≤ 1 := by rw [unsignedLength_le_iff le_rfl]; omega
  refine eq_of_forall_ge_iff fun k => ?_
  obtain hk | hk := Nat.lt_or_ge 1 k
  · obtain ⟨j, rfl⟩ : ∃ j, k = j + 1 := ⟨k - 1, by omega⟩
    have hshift : v / 2 ^ 7 < 2 ^ (7 * j) ↔ v < 2 ^ (7 * (j + 1)) := by
      rw [Nat.div_lt_iff_lt_mul (by norm_num), ← pow_add, Nat.mul_succ]
    rw [unsignedLength_le_iff (by omega), ← hshift, ← unsignedLength_le_iff (by omega)]
    omega
  · omega

theorem encodeUnsigned_of_lt {v : Word} (h : v.toNat < 128) : encodeUnsigned v = [v.setWidth 8] := by
  have hlen : unsignedLength v.toNat = 1 := (unsignedLength_eq_one_iff _).mpr (by omega)
  have hbit : continuation (v.setWidth 8) = false := by
    rw [← Bool.not_eq_true, continuation_iff, BitVec.toNat_setWidth]; omega
  have hbyte := encodedByte_of_fields (v.setWidth 8)
  rw [hbit, ← group_zero_toNat] at hbyte
  rw [encodeUnsigned_eq, hlen, emitGroups_concat, hbyte]
  rfl

theorem encodeUnsigned_of_ge {v : Word} (h : 128 ≤ v.toNat) :
    encodeUnsigned v = (v.setWidth 8 ||| 0x80#8) :: encodeUnsigned (v >>> 7) := by
  have hrest : (v >>> 7).toNat = v.toNat / 2 ^ 7 := by
    rw [BitVec.toNat_ushiftRight, Nat.shiftRight_eq_div_pow]
  have hmore : decide (0 < unsignedLength (v.toNat / 2 ^ 7)) = true := decide_eq_true (unsignedLength_pos _)
  have hbyte : ∀ b : Byte, encodedByte true (payload b) = b ||| 0x80#8 := by decide
  rw [encodeUnsigned_eq, unsignedLength_of_ge h, emitGroups_succ, hmore, group_zero_toNat, hbyte,
    encodeUnsigned_eq, hrest]

/-- Settles O15: below 128 one byte holds the value; from 128 on the bytes after the first are those of the rest. -/
theorem encuPeelsSevenBitsAtATime : Obligations.EncuPeelsSevenBitsAtATime := fun v =>
  ⟨fun h => encodeUnsigned_of_lt h ▸ encodes_encu v,
   fun h => ⟨_, encodes_encu (v >>> 7), encodeUnsigned_of_ge h ▸ encodes_encu v⟩⟩

/-- Settles O16: the special case before the loop. -/
theorem encuOfZeroIsOneZeroByte : Obligations.EncuOfZeroIsOneZeroByte :=
  encodes_encu 0

/-! ### The length and the last byte of the forms (40_encode R92, R97) -/

theorem encodeUnsigned_length_pos (v : Word) : 1 ≤ (encodeUnsigned v).length :=
  (unsignedLength_pos _).trans_eq (encodeUnsigned_length v).symm

theorem encodeSigned_length_pos (v : Word) : 1 ≤ (encodeSigned Config.core v).length :=
  (signedLength_pos v).trans_eq (encodeSigned_length v).symm

/-- ENCU's form ends in what lies above its other groups. -/
theorem encodeUnsigned_eq_concat (v : Word) : ∃ (q : List Byte) (g : Group),
    encodeUnsigned v = q ++ [encodedByte false g] ∧ q.length + 1 = unsignedLength v.toNat ∧
      g.toNat = v.toNat / 2 ^ (7 * q.length) := by
  obtain ⟨n, hn⟩ := Nat.exists_eq_add_of_le' (unsignedLength_pos v.toNat)
  have hlt := lt_two_pow_unsignedLength v.toNat
  rw [encodeUnsigned_eq, hn, emitGroups_concat]
  rw [hn] at hlt
  exact ⟨_, _, rfl, by simp, by simpa using group_last_toNat hlt⟩

/-- The length is the least that holds the value. -/
theorem two_pow_le_of_unsignedLength {v n : Nat} (hn : n + 1 = unsignedLength v) (hv : v ≠ 0) :
    2 ^ (7 * n) ≤ v := by
  obtain rfl | hpos := Nat.eq_zero_or_pos n
  · exact Nat.pos_of_ne_zero hv
  · exact ((unsignedLength_eq_iff (by omega) v).mp hn.symm).1

theorem minimalUnsigned_concat (q : List Byte) (b : Byte) :
    minimalUnsigned (q ++ [b]) = true ↔ q = [] ∨ payload b ≠ 0 := by
  simp [minimalUnsigned]

/-- Settles O17: the last group is what lies above the others, so it is not zero unless the value is, and the tenth is
bit 63 alone. -/
theorem encuResultProperties : Obligations.EncuResultProperties := by
  intro v
  obtain ⟨q, g, hq, hlen, hg⟩ := encodeUnsigned_eq_concat v
  have hlast : v ≠ 0 → g ≠ 0 := by
    rintro hv rfl
    have hle := two_pow_le_of_unsignedLength hlen (fun h0 => hv (BitVec.eq_of_toNat_eq h0))
    exact (Nat.div_pos hle (by positivity)).ne hg
  have hmin : minimalUnsigned (encodeUnsigned v) = true := by
    rw [hq, minimalUnsigned_concat, payload_encodedByte]
    obtain rfl | hv := eq_or_ne v 0
    · exact .inl (List.length_eq_zero_iff.mp (Nat.succ_injective hlen))
    · exact .inr (hlast hv)
  refine ⟨_, encodes_encu v, encodeUnsigned_length v, encodeUnsigned_length_pos v, encodeUnsigned_length_le v, ?bytes,
    chain_encodeUnsigned v, hmin, ?nonzero, unsignedValue_encodeUnsigned v, ?tenth⟩
  case bytes =>
    rw [encodeUnsigned_eq]
    exact emitGroups_getElem_eq_or _ _
  case nonzero =>
    intro hv hzero
    rw [hq, List.getLast?_concat, Option.some.injEq] at hzero
    have hpay := congrArg payload hzero
    rw [payload_encodedByte] at hpay
    exact hlast hv hpay
  case tenth =>
    intro h10
    rw [encodeUnsigned_length] at h10
    have hv := v.isLt
    obtain ⟨hbit63, -⟩ := (unsignedLength_eq_iff (k := 10) (by omega) _).mp h10
    have hg1 : g.toNat = 1 := by rw [hg, show q.length = 9 by omega]; omega
    have hone : g = 1 := BitVec.eq_of_toNat_eq hg1
    rw [hq, List.getLast?_concat, hone]
    rfl

/-- Settles O18: both encodes complete with a form of 1 to 10 bytes that `req.val` alone determines. -/
theorem encodesNeverFail : Obligations.EncodesNeverFail := by
  intro v
  refine ⟨⟨encodeUnsigned v, encodeUnsigned_length_pos v, encodeUnsigned_length_le v, fun seq s => ?encu⟩,
    ⟨encodeSigned Config.core v, encodeSigned_length_pos v, encodeSigned_length_le v, fun seq s => ?encs⟩⟩
  case encu => rw [decode_select_encu]; exact encodes_encu v s
  case encs => rw [decode_select_encs]; exact encodes_encs v s

/-! ### ENCS of a nonnegative value (40_encode R95) -/

theorem padSign_concat (spad : Bool) (q : List Byte) (b : Byte) :
    padSign spad (q ++ [b]) = if spad && signBit b then q ++ [setContinuation b, 0x00#8] else q ++ [b] := by
  simp [padSign]

theorem toNat_eq_asSigned64 {v : Word} (h : 0 ≤ asSigned64 v) : (v.toNat : Int) = asSigned64 v := by
  have hmsb : v.msb = false := by
    rw [BitVec.msb_eq_toInt]; exact decide_eq_false (not_lt.mpr h)
  exact (BitVec.toInt_eq_toNat_of_msb hmsb).symm

/-- A nonnegative value has no bit 63. -/
theorem bitlen_le_of_nonneg {v : Word} (h : 0 ≤ asSigned64 v) : bitlen v.toNat ≤ 63 := by
  have hlt : asSigned64 v < 2 ^ 63 := BitVec.toInt_lt
  rw [bitlen_le_iff]
  rw [← toNat_eq_asSigned64 h] at hlt
  exact_mod_cast hlt

/-- The width of exactly `7k` bits, as a range. -/
theorem bitlen_eq_iff {v k : Nat} (hk : 1 ≤ k) : bitlen v = 7 * k ↔ 2 ^ (7 * k - 1) ≤ v ∧ v < 2 ^ (7 * k) := by
  rw [← lt_bitlen_iff, ← bitlen_le_iff]; omega

theorem bitlen_pos_iff (x : Nat) : 0 < bitlen x ↔ 0 < x := lt_bitlen_iff x 0

/-- ENCU's form reads as negative when the value fills its groups to the last bit. -/
theorem formSign_encodeUnsigned_iff (v : Word) :
    formSign (encodeUnsigned v) = true ↔ bitlen v.toNat % 7 = 0 ∧ 0 < v.toNat := by
  rw [formSign_iff (chain_encodeUnsigned v).1, unsignedValue_encodeUnsigned, encodeUnsigned_length, ← lt_bitlen_iff,
    unsignedLength, ← bitlen_pos_iff]
  omega

/-- The forms that fill their last group, value range by value range. -/
theorem formSign_encodeUnsigned_iff_range {v : Word} (h : 0 ≤ asSigned64 v) :
    formSign (encodeUnsigned v) = true ↔
      ∃ k : Nat, 1 ≤ k ∧ k ≤ 9 ∧ 2 ^ (7 * k - 1) ≤ v.toNat ∧ v.toNat < 2 ^ (7 * k) := by
  have hle := bitlen_le_of_nonneg h
  rw [formSign_encodeUnsigned_iff, ← bitlen_pos_iff]
  constructor
  · rintro ⟨h7, h0⟩
    exact ⟨bitlen v.toNat / 7, by omega, by omega, (bitlen_eq_iff (by omega)).mp (by omega)⟩
  · rintro ⟨k, h1, -, hk⟩
    have hbits := (bitlen_eq_iff h1).mpr hk
    omega

theorem unsignedLength_of_range {v k : Nat} (h1 : 1 ≤ k) (hk : 2 ^ (7 * k - 1) ≤ v ∧ v < 2 ^ (7 * k)) :
    unsignedLength v = k := by
  have hbits := (bitlen_eq_iff h1).mpr hk
  rw [unsignedLength]; omega

/-- The padding step of ENCS, by the sign bit of ENCU's last byte. -/
theorem encodeSigned_of_nonneg {v : Word} (h : 0 ≤ asSigned64 v) {q : List Byte} {b : Byte}
    (hq : encodeUnsigned v = q ++ [b]) :
    (signBit b = true → encodeSigned Config.core v = q ++ [setContinuation b, 0x00#8]) ∧
    (signBit b = false → encodeSigned Config.core v = q ++ [b]) := by
  rw [encodeSigned, if_pos h, hq, padSign_concat, core_spad, Bool.true_and]
  exact ⟨fun hb => if_pos hb, fun hb => if_neg (Bool.not_eq_true _ ▸ hb)⟩

/-- An unsigned form with its sign bit clear reads the same as signed. -/
theorem decodes_decs_encodeUnsigned_of_clear {v : Word} (h : formSign (encodeUnsigned v) = false) :
    Decodes (.decs (encodeUnsigned v)) v := by
  have hdec := decodes_decs (chain_encodeUnsigned v).1 (encodeUnsigned_length_le v)
  rwa [signedValue_of_clear h, unsignedValue_encodeUnsigned, trunc64_natCast, BitVec.ofNat_toNat,
    BitVec.setWidth_eq] at hdec

/-- An unsigned form with its sign bit set reads too small as signed. -/
theorem decodes_decs_encodeUnsigned_of_set {v : Word} (h : formSign (encodeUnsigned v) = true) :
    Decodes (.decs (encodeUnsigned v)) (trunc64 ((v.toNat : Int) - 2 ^ (7 * unsignedLength v.toNat))) := by
  have hdec := decodes_decs (chain_encodeUnsigned v).1 (encodeUnsigned_length_le v)
  rwa [signedValue_of_set h, unsignedValue_encodeUnsigned, encodeUnsigned_length] at hdec

/-- Settles O19, by the sign bit of ENCU's form. -/
theorem encsOfNonnegativeDelegatesAndPads : Obligations.EncsOfNonnegativeDelegatesAndPads := by
  intro v hv
  obtain ⟨q, b, hq⟩ := (List.eq_nil_or_concat' _).resolve_left (chain_encodeUnsigned v).1
  have hsign : b.getLsbD 6 = formSign (q ++ [b]) := (formSign_concat q b).symm
  obtain ⟨hpadded, hplain⟩ := encodeSigned_of_nonneg hv hq
  have hclear := decodes_decs_encodeUnsigned_of_clear (v := v)
  have hset := decodes_decs_encodeUnsigned_of_set (v := v)
  have hrange := formSign_encodeUnsigned_iff_range hv
  have hbits := formSign_encodeUnsigned_iff v
  rw [hq] at hclear hset hrange hbits
  refine ⟨q, b, hq ▸ encodes_encu v, fun h => hpadded h ▸ encodes_encs v, fun h => hplain h ▸ encodes_encs v,
    hsign ▸ hrange, hsign ▸ hbits, ?spad0, fun h => hclear (hsign ▸ h), fun k h1 h9 hlo hhi => ?wrong⟩
  case spad0 => rw [encodeSigned_of_nonneg_of_not_spad rfl hv, hq]
  case wrong =>
    have hdec := hset (hrange.mpr ⟨k, h1, h9, hlo, hhi⟩)
    rwa [unsignedLength_of_range h1 ⟨hlo, hhi⟩] at hdec

/-! ### ENCS of a negative value (40_encode R96) -/

theorem encodeSigned_of_neg {v : Word} {m : Nat} (h : asSigned64 v < 0) (hm : (m : Int) = -asSigned64 v) :
    encodeSigned Config.core v = encodeNegative m := by
  rw [encodeSigned, if_neg (not_le.mpr h), ← hm, Int.toNat_natCast]

theorem bitlen_lt_signedWidth (m : Nat) : bitlen m < signedWidth m := by
  unfold signedWidth; omega

theorem lt_two_pow_signedWidth (m : Nat) : m < 2 ^ (signedWidth m - 1) := by
  have := bitlen_lt_signedWidth m
  rw [← bitlen_le_iff]; omega

/-- The magnitude of a negative value (42_laws R134). -/
theorem magnitude_range {v : Word} {m : Nat} (h : asSigned64 v < 0) (hm : (m : Int) = -asSigned64 v) :
    1 ≤ m ∧ m ≤ 2 ^ 63 := by
  have hle := natAbs_toInt_le v
  rw [asSigned64] at h hm
  omega

/-- The sign of a form is the sign of its value. -/
theorem formSign_iff_signedValue_neg (s : List Byte) : formSign s = true ↔ signedValue s < 0 := by
  have hlt : (unsignedValue s : Int) < 2 ^ (7 * s.length) := by exact_mod_cast unsignedValue_lt s
  cases h : formSign s with
  | false => simp [signedValue_of_clear h]
  | true => simp [signedValue_of_set h, hlt]

theorem formSign_encodeSigned_iff (v : Word) :
    formSign (encodeSigned Config.core v) = true ↔ asSigned64 v < 0 := by
  rw [formSign_iff_signedValue_neg, signedValue_encodeSigned]

/-- Settles O20: the form's value is `v`, so its sign bit is set, and the pattern has the magnitude's complement. -/
theorem encsOfNegativeEmitsTheComplement : Obligations.EncsOfNegativeEmitsTheComplement := by
  rintro v m N t hv hm rfl rfl
  obtain ⟨h1, h63⟩ := magnitude_range hv hm
  have hlow : m < 2 ^ (signedWidth m - 1) := lt_two_pow_signedWidth m
  have hwidth : 2 ^ signedWidth m = 2 * 2 ^ (signedWidth m - 1) := by
    rw [← pow_succ', Nat.sub_add_cancel (Nat.one_le_of_lt (bitlen_lt_signedWidth m))]
  have hpat : maskedNot (signedWidth m) m + 1 = 2 ^ signedWidth m - m := maskedNot_add_one (by omega)
  have hform : encodeSigned Config.core v = emitGroups (signedWidth m / 7) (2 ^ signedWidth m - m) := by
    rw [encodeSigned_of_neg hv hm, encodeNegative, hpat]
  have hbytes := emitGroups_getElem_eq_or (signedWidth m / 7) (2 ^ signedWidth m - m)
  have hlen := emitGroups_length (signedWidth m / 7) (2 ^ signedWidth m - m)
  rw [← hform] at hbytes hlen
  rw [← signedWidth]
  exact ⟨h1, h63, hpat, by omega, by omega, _, encodes_encs v, hlen, hbytes, (formSign_encodeSigned_iff v).mpr hv,
    signedValue_encodeSigned v⟩

/-! ### The bits of an ENCS form (40_encode R97) -/

/-- The low 70 bits of the value sign-extended, which the groups are taken from. -/
theorem testBit_signed_pattern (v : Word) {i : Nat} (hi : i < 70) :
    (v.toInt % 2 ^ 70).toNat.testBit i = if i < 64 then v.getLsbD i else decide (asSigned64 v < 0) := by
  have hext : (v.toInt % 2 ^ 70).toNat = (v.signExtend 70).toNat := (BitVec.toNat_ofInt v.toInt).symm
  rw [hext, BitVec.testBit_toNat, BitVec.getLsbD_signExtend, decide_eq_true hi, Bool.true_and, BitVec.msb_eq_toInt]
  rfl

theorem encodeSigned_getLsbD (v : Word) (i : Nat) (h : i < (encodeSigned Config.core v).length) (j : Nat) (hj : j < 7) :
    (encodeSigned Config.core v)[i].getLsbD j =
      if 7 * i + j < 64 then v.getLsbD (7 * i + j) else decide (asSigned64 v < 0) := by
  have h10 := encodeSigned_length_le v
  simp only [encodeSigned_eq _ core_spad, emitGroups_getLsbD _ _ _ _ hj]
  exact testBit_signed_pattern v (by omega)

/-! ### Droppable groups (30_encoding R65) -/

theorem signedValue_eq_sub (s : List Byte) :
    signedValue s = unsignedValue s - 2 ^ (7 * s.length) * (formSign s).toInt := by
  cases h : formSign s with
  | false => simp [signedValue_of_clear h]
  | true => simp [signedValue_of_set h]

theorem payload_toInt (b : Byte) : (payload b).toInt = (payload b).toNat - 2 ^ 7 * (signBit b).toInt := by
  revert b; decide

/-- The last group counts as signed, and the groups before it as unsigned. -/
theorem signedValue_concat (s : List Byte) (b : Byte) :
    signedValue (s ++ [b]) = unsignedValue s + 2 ^ (7 * s.length) * (payload b).toInt := by
  have hwidth : (2 : Int) ^ (7 * (s ++ [b]).length) = 2 ^ (7 * s.length) * 2 ^ 7 := by
    rw [← pow_add, List.length_append, List.length_singleton, Nat.mul_succ]
  rw [signedValue_eq_sub, formSign_concat, unsignedValue_concat, hwidth, payload_toInt]
  push_cast
  ring

theorem signedValue_concat_bmod {s : List Byte} (hs : s ≠ []) (b : Byte) :
    (signedValue (s ++ [b])).bmod (2 ^ (7 * s.length)) = signedValue s := by
  rw [signedValue_concat, signedValue_eq_toInt hs, BitVec.toInt_ofNat']
  exact_mod_cast Int.add_mul_bmod_self_left _ _ _

theorem droppableGroup_concat_concat (r : List Byte) (a b : Byte) :
    droppableGroup (r ++ [a] ++ [b]) = true ↔ (payload b).toInt = -(signBit a).toInt := by
  have hgroup : ∀ (g : Group) (sign : Bool),
      ((g == 0x00#7 && !sign) || (g == 0x7F#7 && sign)) = true ↔ g.toInt = -sign.toInt := by decide
  rw [← hgroup]
  simp [droppableGroup]

/-- A last group is droppable when the form before it has the same value. -/
theorem droppableGroup_concat_iff {s : List Byte} (hs : s ≠ []) (b : Byte) :
    droppableGroup (s ++ [b]) = true ↔ signedValue (s ++ [b]) = signedValue s := by
  obtain ⟨r, a, rfl⟩ := (List.eq_nil_or_concat' s).resolve_left hs
  have hpos : (0 : Int) < 2 ^ (7 * (r ++ [a]).length) := by positivity
  rw [droppableGroup_concat_concat, signedValue_concat, signedValue_eq_sub, formSign_concat, sub_eq_add_neg,
    ← mul_neg, add_right_inj, mul_right_inj' hpos.ne']

theorem minimalSigned_singleton (b : Byte) : minimalSigned [b] = true := rfl

theorem minimalSigned_concat_iff {s : List Byte} (hs : s ≠ []) (b : Byte) :
    minimalSigned (s ++ [b]) = false ↔ signedValue (s ++ [b]) = signedValue s := by
  rw [← droppableGroup_concat_iff hs]
  simp [minimalSigned]

/-! ### The nine values at which ENCS is not minimal (40_encode R97, R99) -/

/-- A form of `n ≥ 2` bytes has a droppable group when its value fits in the signed range of `n - 1` groups. -/
theorem minimalSigned_iff_range {q : List Byte} {n : Nat} (hn : q.length = n + 1) (h1 : 1 ≤ n) :
    minimalSigned q = false ↔ -2 ^ (7 * n - 1) ≤ signedValue q ∧ signedValue q < 2 ^ (7 * n - 1) := by
  obtain ⟨s, b, rfl⟩ := (List.eq_nil_or_concat' q).resolve_left (List.ne_nil_of_length_pos (by omega))
  obtain rfl : s.length = n := by simpa using hn
  have hs : s ≠ [] := List.ne_nil_of_length_pos h1
  have hwidth : 2 ^ (7 * s.length) = 2 * 2 ^ (7 * s.length - 1) := by
    rw [← pow_succ', Nat.sub_add_cancel (by omega)]
  rw [minimalSigned_concat_iff hs]
  constructor
  · exact fun heq => heq ▸ signedValue_range hs
  · rintro ⟨hlo, hhi⟩
    rw [← signedValue_concat_bmod hs b]
    refine (Int.bmod_eq_of_le_mul_two ?_ ?_).symm <;> rw [hwidth] <;> push_cast <;> omega

theorem bitlen_two_pow (k : Nat) : bitlen (2 ^ k) = k + 1 := by
  have hle := (bitlen_le_iff (2 ^ k) (k + 1)).mpr (Nat.pow_lt_pow_succ Nat.one_lt_two)
  have hlt := (lt_bitlen_iff (2 ^ k) k).mpr le_rfl
  omega

/-- At the nine values the width formula takes a group more than the signed range needs (decision D19). -/
theorem signedLength_of_neg_two_pow {v : Word} {k : Nat} (h1 : 1 ≤ k) (hk : asSigned64 v = -2 ^ (7 * k - 1)) :
    signedLength v = k + 1 := by
  have habs : v.toInt.natAbs = 2 ^ (7 * k - 1) := by
    rw [← asSigned64, hk, Int.natAbs_neg, Int.natAbs_pow]; rfl
  rw [signedLength, habs, bitlen_two_pow]
  omega

/-- An ENCS form is as long as its value's magnitude needs, so only the least value of a shorter form's range has a
group too many. -/
theorem minimalSigned_encodeSigned_iff (v : Word) :
    minimalSigned (encodeSigned Config.core v) = false ↔
      ∃ k : Nat, 1 ≤ k ∧ k ≤ 9 ∧ asSigned64 v = -2 ^ (7 * k - 1) := by
  have hlen := encodeSigned_length v
  constructor
  · intro hmin
    have hle := signedLength_le v
    obtain ⟨n, hn⟩ := Nat.exists_eq_add_of_le' (signedLength_pos v)
    rw [hn] at hlen hle
    obtain rfl | h1 := Nat.eq_zero_or_pos n
    · obtain ⟨b, hb⟩ := List.length_eq_one_iff.mp hlen
      rw [hb, minimalSigned_singleton] at hmin
      exact absurd hmin (by decide)
    · have hmag : 2 ^ (7 * n - 1) ≤ (asSigned64 v).natAbs := by
        rw [← not_lt, ← signedLength_le_iff h1]; omega
      have hmag' : (2 : Int) ^ (7 * n - 1) ≤ (asSigned64 v).natAbs := by exact_mod_cast hmag
      rw [minimalSigned_iff_range hlen h1, signedValue_encodeSigned] at hmin
      exact ⟨n, h1, by omega, by omega⟩
  · rintro ⟨k, h1, -, hk⟩
    rw [minimalSigned_iff_range (hlen.trans (signedLength_of_neg_two_pow h1 hk)) h1, signedValue_encodeSigned, hk]
    exact ⟨le_rfl, (neg_neg_of_pos (by positivity)).trans (by positivity)⟩

/-- Settles O21: the form's groups are those of the value sign-extended to 70 bits. -/
theorem encsResultProperties : Obligations.EncsResultProperties := fun v =>
  ⟨_, encodes_encs v, encodeSigned_length v, encodeSigned_length_pos v, encodeSigned_length_le v,
    chain_encodeSigned v, formSign_encodeSigned_iff v, signedValue_encodeSigned v,
    encodeSigned_getLsbD v, minimalSigned_encodeSigned_iff v⟩

/-! ### The widths above 64 (40_encode R98) -/

theorem signedWidth_magnitude {v : Word} (h : asSigned64 v < 0) :
    signedWidth (-asSigned64 v).toNat = 7 * signedLength v := by
  have hmag : (-asSigned64 v).toNat = v.toInt.natAbs := by rw [asSigned64] at h ⊢; omega
  rw [signedWidth, hmag, signedLength]

theorem signedLength_eq_ten_iff_of_neg {v : Word} (h : asSigned64 v < 0) :
    signedLength v = 10 ↔ asSigned64 v ≤ -2 ^ 62 := by
  rw [signedLength_eq_ten_iff]; omega

/-- Settles O22: 70 bits are ten bytes, whose bits at 64 and above are copies of the sign. -/
theorem encsOfMostNegativeAndTheSeventyBitWidth : Obligations.EncsOfMostNegativeAndTheSeventyBitWidth := by
  have hbits : bitlen (2 ^ 63) = 64 := bitlen_two_pow 63
  refine ⟨hbits, by rw [signedWidth, hbits], ?pattern, fun _ => rfl, fun v hv => ?width, fun v hv => ?bits⟩
  case pattern => rw [maskedNot_add_one (by norm_num)]; norm_num
  case width => rw [signedWidth_magnitude hv, ← signedLength_eq_ten_iff_of_neg hv]; omega
  case bits =>
    have hneg : asSigned64 v < 0 := hv.trans_lt (by norm_num)
    refine ⟨_, encodes_encs v, (encodeSigned_length v).trans ((signedLength_eq_ten_iff_of_neg hneg).mpr hv),
      fun i h j hj => ?_⟩
    rw [encodeSigned_getLsbD v i h j hj, decide_eq_true hneg]

/-! ### The two forms of each of the nine values (40_encode R99) -/

/-- Of well-formed chains of one length, each is determined by its signed value. -/
theorem ChainWellFormed.eq_of_signedValue {s t : List Byte} (hs : ChainWellFormed s) (ht : ChainWellFormed t)
    (hlen : s.length = t.length) (hval : signedValue s = signedValue t) : s = t := by
  have hmod : ∀ q : List Byte, signedValue q % 2 ^ (7 * q.length) = unsignedValue q := fun q => by
    have hlt : (unsignedValue q : Int) < 2 ^ (7 * q.length) := by exact_mod_cast unsignedValue_lt q
    rw [signedValue_eq_sub, Int.sub_mul_emod_self_left, Int.emod_eq_of_lt (Int.natCast_nonneg _) hlt]
  have huns : unsignedValue s = unsignedValue t := by
    have hres := hmod s
    rw [hval, hlen, hmod t] at hres
    exact_mod_cast hres.symm
  rw [← emitGroups_of_chain hs, ← emitGroups_of_chain ht, hlen, huns]

theorem unsignedValue_replicate_zero (n : Nat) : unsignedValue (List.replicate n 0x80#8) = 0 := by
  induction n with
  | zero => rfl
  | succ n ih => rw [List.replicate_succ, unsignedValue_cons, ih]; rfl

/-- Zero groups under a last byte shift its signed value. -/
theorem signedValue_replicate_concat (n : Nat) (b : Byte) :
    signedValue (List.replicate n 0x80#8 ++ [b]) = 2 ^ (7 * n) * (payload b).toInt := by
  rw [signedValue_concat, unsignedValue_replicate_zero, List.length_replicate]
  simp

theorem asSigned64_trunc64 {x : Int} (hlo : -2 ^ 63 ≤ x) (hhi : x < 2 ^ 63) : asSigned64 (trunc64 x) = x :=
  BitVec.toInt_ofInt_eq_self (by norm_num) hlo hhi

theorem ChainWellFormed.cons {b : Byte} {s : List Byte} (hb : continuation b = true) (hs : ChainWellFormed s) :
    ChainWellFormed (b :: s) := by
  obtain ⟨hne, hbit⟩ := hs
  refine ⟨List.cons_ne_nil _ _, fun i hi => ?_⟩
  cases i with
  | zero => simpa [hb, List.length_pos_iff] using hne
  | succ i => simpa using hbit i (Nat.lt_of_succ_lt_succ hi)

theorem ChainWellFormed.replicate_append {s : List Byte} (hs : ChainWellFormed s) (n : Nat) :
    ChainWellFormed (List.replicate n 0x80#8 ++ s) := by
  induction n with
  | zero => exact hs
  | succ n ih => exact ih.cons (by decide)

/-- A byte whose payload is `0x40`, above zero groups, reads as the least value of that many groups. -/
theorem signedValue_least {b : Byte} (hb : payload b = 0x40#7) {k : Nat} (h1 : 1 ≤ k) :
    signedValue (List.replicate (k - 1) 0x80#8 ++ [b]) = -2 ^ (7 * k - 1) := by
  have hsplit : 7 * k - 1 = 7 * (k - 1) + 6 := by omega
  rw [signedValue_replicate_concat, hb, hsplit, pow_add, ← mul_neg]
  rfl

/-- A group of ones after the group that holds the sign already is droppable, so it leaves the least value as it is. -/
theorem signedValue_least_with_ones {k : Nat} (h1 : 1 ≤ k) :
    signedValue (List.replicate (k - 1) 0x80#8 ++ [0xC0#8, 0x7F#8]) = -2 ^ (7 * k - 1) := by
  have hdrop := (droppableGroup_concat_concat (List.replicate (k - 1) 0x80#8) 0xC0#8 0x7F#8).mpr (by decide)
  rw [droppableGroup_concat_iff (List.concat_ne_nil _ _), signedValue_least rfl h1, List.append_assoc] at hdrop
  exact hdrop

theorem encodeSigned_neg_two_pow {v : Word} {k : Nat} (h1 : 1 ≤ k) (hv : asSigned64 v = -2 ^ (7 * k - 1)) :
    encodeSigned Config.core v = List.replicate (k - 1) 0x80#8 ++ [0xC0#8, 0x7F#8] := by
  have htail : ChainWellFormed [0xC0#8, 0x7F#8] := by decide
  refine (chain_encodeSigned v).eq_of_signedValue (htail.replicate_append _) ?length ?value
  case length =>
    have hpair : [0xC0#8, 0x7F#8].length = 2 := rfl
    rw [encodeSigned_length, signedLength_of_neg_two_pow h1 hv, List.length_append, List.length_replicate, hpair]
    omega
  case value => rw [signedValue_encodeSigned, signedValue_least_with_ones h1, hv]

theorem asSigned64_nine_values {k : Nat} (h9 : k ≤ 9) :
    asSigned64 (trunc64 (-2 ^ (7 * k - 1))) = -2 ^ (7 * k - 1) := by
  have hpow : (2 : Int) ^ (7 * k - 1) ≤ 2 ^ 62 := pow_le_pow_right₀ (by norm_num) (by omega)
  have hpos : (0 : Int) < 2 ^ (7 * k - 1) := by positivity
  exact asSigned64_trunc64 (by omega) (by omega)

/-- Settles O23: the shorter and the longer form of each of the nine values have that value. -/
theorem encsIsNotMinimalAtNineValues : Obligations.EncsIsNotMinimalAtNineValues := by
  refine ⟨fun k h1 h9 => ?nine, fun v hneg hnot => ?other⟩
  case nine =>
    have hval := asSigned64_nine_values h9
    have hform := encodeSigned_neg_two_pow h1 hval
    refine ⟨hform ▸ encodes_encs _, hform ▸ (minimalSigned_encodeSigned_iff _).mpr ⟨k, h1, h9, hval⟩,
      hform ▸ decodes_decs_encodeSigned _, ?_⟩
    rw [← signedValue_least (b := 0x40#8) rfl h1]
    exact decodes_decs (List.concat_ne_nil _ _) (by rw [List.length_append, List.length_replicate]; simp; omega)
  case other =>
    refine ⟨_, encodes_encs v, ?_⟩
    rw [← Bool.not_eq_false, minimalSigned_encodeSigned_iff]
    rintro ⟨k, h1, h9, hk⟩
    exact hnot k h1 h9 hk

end Sys2Proof.Machine

namespace Sys2Proof.Machine

/-! ### The length check (41_decode R111) and what it lets through -/

theorem exec_decu (q : List Byte) (s : State) :
    exec (.decu q) s = s.answer (decodeUnsigned Config.core q) := rfl

theorem exec_decs (q : List Byte) (s : State) :
    exec (.decs q) s = s.answer (decodeSigned Config.core q) := rfl

/-- A decode of a nonempty sequence gives a value when the sequence is short enough, and else LengthOverflow. -/
theorem decode_answer_cases {q : List Byte} (hq : q ≠ []) {i : Instr} (hi : i = .decu q ∨ i = .decs q) :
    (q.length ≤ 10 ∧ ∃ v, Decodes i v) ∨ (10 < q.length ∧ Overflows i) := by
  obtain ⟨hlen, hdecu, hdecs⟩ | ⟨hlen, hdecu, hdecs⟩ := decode_cases q hq
  · obtain rfl | rfl := hi
    · exact .inl ⟨hlen, _, hdecu⟩
    · exact .inl ⟨hlen, _, hdecs⟩
  · obtain rfl | rfl := hi
    · exact .inr ⟨hlen, hdecu⟩
    · exact .inr ⟨hlen, hdecs⟩

/-- A legal length never overflows, in either decode. -/
theorem exists_decodes_of_length {q : List Byte} (h1 : 1 ≤ q.length) (h10 : q.length ≤ 10) :
    (∃ v, Decodes (.decu q) v) ∧ ∃ v, Decodes (.decs q) v := by
  have hq : q ≠ [] := List.ne_nil_of_length_pos h1
  exact ⟨⟨_, decodes_decu hq h10⟩, _, decodes_decs hq h10⟩

theorem length_of_encodes {v : Word} {i : Instr} {q : List Byte} (hi : i = .encu v ∨ i = .encs v)
    (hq : Encodes i q) : 1 ≤ q.length ∧ q.length ≤ 10 := by
  obtain rfl | rfl := hi
  · exact hq.unique (encodes_encu v) ▸ ⟨encodeUnsigned_length_pos v, encodeUnsigned_length_le v⟩
  · exact hq.unique (encodes_encs v) ▸ ⟨encodeSigned_length_pos v, encodeSigned_length_le v⟩

/-- Settles O27: the length alone decides, and the encoders' lengths lie between 1 and 10. -/
theorem lengthCheck : Obligations.LengthCheck := by
  refine ⟨fun q h => ⟨overflows_decu h, overflows_decs h⟩, fun q => exists_decodes_of_length,
    fun v i q hi hq => ?_⟩
  obtain ⟨h1, h10⟩ := length_of_encodes hi hq
  obtain ⟨hdecu, hdecs⟩ := exists_decodes_of_length h1 h10
  exact ⟨hdecu, hdecs, fun h9 => ⟨decodeUnsigned_long h9, decodeSigned_long h9⟩⟩

/-- Settles O36: the two refusals. -/
theorem emptySequenceIsRefused : Obligations.EmptySequenceIsRefused :=
  ⟨refuses_decu_nil, refuses_decs_nil⟩

/-- Settles O38: the general rule at one byte, whose unsigned and signed value are 0. -/
theorem singleZeroByteDecodesToZero : Obligations.SingleZeroByteDecodesToZero :=
  ⟨decodes_decu (q := [0x00#8]) (by decide) (by decide), decodes_decs (q := [0x00#8]) (by decide) (by decide)⟩

/-- Settles O39: the decoded operation does not hold `req.val`, and its answer is a value or LengthOverflow. -/
theorem decodeWritesValueOrStatusAlone : Obligations.DecodeWritesValueOrStatusAlone := by
  intro q hq op hop
  obtain ⟨i, hdecode, hi⟩ : ∃ i, (∀ v, decode ⟨op, v, q⟩ = i) ∧ (i = .decu q ∨ i = .decs q) := by
    obtain rfl | rfl := hop
    · exact ⟨_, fun v => decode_select_decu v q, .inl rfl⟩
    · exact ⟨_, fun v => decode_select_decs v q, .inr rfl⟩
  simp only [hdecode]
  obtain ⟨hlen, v, hdec⟩ | ⟨hlen, hover⟩ := decode_answer_cases hq hi
  · exact ⟨decodedOk v, fun _ s => hdec s, rfl, fun _ => ⟨rfl, rfl⟩, fun h => absurd hlen (not_le.mpr h)⟩
  · exact ⟨overflowResponse, fun _ s => hover s, rfl, fun h => absurd h (not_le.mpr hlen), fun _ => ⟨rfl, rfl⟩⟩

/-! ### Bit 7 is ignored (41_decode R113) -/

theorem checkLength_congr {s t : List Byte} (h : s.length = t.length) (cfg : Config) (v : Word) :
    checkLength cfg s v = checkLength cfg t v := by
  simp only [checkLength, List.isEmpty_iff_length_eq_zero, h]

theorem signedValue_congr {s t : List Byte} (h : s.map payload = t.map payload) : signedValue s = signedValue t := by
  have hlen : s.length = t.length := by simpa using congrArg List.length h
  rw [signedValue_eq_sub, signedValue_eq_sub, unsignedValue_congr h, formSign_congr h, hlen]

theorem decodeUnsigned_congr {s t : List Byte} (h : s.map payload = t.map payload) (cfg : Config) :
    decodeUnsigned cfg s = decodeUnsigned cfg t := by
  have hlen : s.length = t.length := by simpa using congrArg List.length h
  rw [decodeUnsigned, decodeUnsigned, accumulate_eq, accumulate_eq, unsignedValue_congr h, checkLength_congr hlen]

theorem decodeSigned_congr {s t : List Byte} (h : s.map payload = t.map payload) (cfg : Config) :
    decodeSigned cfg s = decodeSigned cfg t := by
  have hlen : s.length = t.length := by simpa using congrArg List.length h
  rw [decodeSigned, decodeSigned, signExtended_eq, signExtended_eq, signedValue_congr h, checkLength_congr hlen]

/-- Settles O29: both values and the length check read the payloads alone. -/
theorem decodeIgnoresContinuationBits : Obligations.DecodeIgnoresContinuationBits := by
  refine ⟨fun q q' h s => ⟨?_, ?_⟩, fun _ => rfl, fun _ => rfl, fun _ => rfl, fun _ => rfl⟩
  · rw [exec_decu, exec_decu, decodeUnsigned_congr h]
  · rw [exec_decs, exec_decs, decodeSigned_congr h]

/-! ### The value of DECU (41_decode R110, R112) -/

theorem eq_concat_of_length {q : List Byte} {n : Nat} (h : q.length = n + 1) :
    ∃ (p : List Byte) (b : Byte), q = p ++ [b] ∧ p.length = n := by
  obtain ⟨p, b, rfl⟩ := (List.eq_nil_or_concat' q).resolve_left (List.ne_nil_of_length_pos (by omega))
  exact ⟨p, b, rfl, by simpa using h⟩

/-- DECU is exact on a value of 64 bits. -/
theorem decodes_decu_exact {q : List Byte} (hq : q ≠ []) (h10 : q.length ≤ 10) (h64 : unsignedValue q < 2 ^ 64) :
    ∃ v : Word, Decodes (.decu q) v ∧ v.toNat = unsignedValue q :=
  ⟨_, decodes_decu hq h10, by rw [BitVec.toNat_ofNat, Nat.mod_eq_of_lt h64]⟩

/-- Nine bytes hold 63 bits. -/
theorem unsignedValue_lt_of_length_le_nine {q : List Byte} (h9 : q.length ≤ 9) : unsignedValue q < 2 ^ 63 :=
  (unsignedValue_lt q).trans_le (Nat.pow_le_pow_right (by norm_num) (by omega))

/-- The tenth byte's payload stands at bit 63. -/
theorem unsignedValue_concat_of_nine {q : List Byte} (h9 : q.length = 9) (b : Byte) :
    unsignedValue (q ++ [b]) = unsignedValue q + 2 ^ 63 * (payload b).toNat := by
  rw [unsignedValue_concat, h9]

theorem payload_lt_two {b : Byte} (h : ∀ j : Nat, 1 ≤ j → j ≤ 6 → b.getLsbD j = false) : (payload b).toNat < 2 := by
  refine Nat.lt_pow_two_of_testBit (n := 1) _ fun j hj => ?_
  obtain hlow | hhigh := Nat.lt_or_ge j 7
  · rw [BitVec.testBit_toNat, payload_getLsbD b hlow, h j hj (by omega)]
  · rw [BitVec.testBit_toNat, BitVec.getLsbD_of_ge _ _ hhigh]

/-- Settles O26: up to nine bytes hold 63 bits, and a tenth whose upper payload bits are clear adds one. -/
theorem decuGivesTheTruncatedUnsignedValue : Obligations.DecuGivesTheTruncatedUnsignedValue := by
  intro q
  refine ⟨overflows_decu, fun h => h ▸ refuses_decu_nil,
    fun h1 h10 => decodes_decu (List.ne_nil_of_length_pos h1) h10, fun h1 h9 => ?nine, fun h10 hclear => ?ten⟩
  case nine =>
    have hlt := unsignedValue_lt_of_length_le_nine h9
    exact decodes_decu_exact (List.ne_nil_of_length_pos h1) (by omega) (by omega)
  case ten =>
    obtain ⟨p, b, rfl, h9⟩ := eq_concat_of_length h10
    have hb : (p ++ [b])[9] = b := List.getElem_concat_length h9.symm _
    rw [hb] at hclear
    have hpay := payload_lt_two hclear
    have hlt := unsignedValue_lt_of_length_le_nine h9.le
    refine decodes_decu_exact (List.concat_ne_nil _ _) h10.le ?_
    rw [unsignedValue_concat_of_nine h9]
    omega

/-- Of what stands at bit 63, 64 bits keep the lowest bit. -/
theorem ofNat_unsignedValue_concat_of_nine {q : List Byte} (h9 : q.length = 9) (b : Byte) :
    BitVec.ofNat 64 (unsignedValue (q ++ [b])) = BitVec.ofNat 64 (unsignedValue q + 2 ^ 63 * (b.toNat % 2)) := by
  apply BitVec.eq_of_toNat_eq
  rw [unsignedValue_concat_of_nine h9, payload_toNat, BitVec.toNat_ofNat, BitVec.toNat_ofNat]
  omega

/-- Settles O28: the tenth payload above bit 63 is a multiple of `2^64`. -/
theorem decuOfTenBytesDiscardsTheTopBits : Obligations.DecuOfTenBytesDiscardsTheTopBits := by
  refine ⟨fun q b h9 => ?_, fun _ => rfl, fun _ => rfl, fun _ => rfl⟩
  rw [← ofNat_unsignedValue_concat_of_nine h9]
  exact decodes_decu (List.concat_ne_nil _ _) (by simp [h9])

/-! ### The value of DECS (41_decode R115 to R119) -/

/-- Up to nine bytes the signed value fits in 64 bits. -/
theorem asSigned64_signedValue {q : List Byte} (hq : q ≠ []) (h9 : q.length ≤ 9) :
    asSigned64 (trunc64 (signedValue q)) = signedValue q := by
  obtain ⟨hlo, hhi⟩ := signedValue_range hq
  have hpow : (2 : Int) ^ (7 * q.length - 1) ≤ 2 ^ 62 := pow_le_pow_right₀ (by norm_num) (by omega)
  exact asSigned64_trunc64 (by omega) (by omega)

theorem decodes_decs_exact {q : List Byte} (hq : q ≠ []) (h9 : q.length ≤ 9) :
    ∃ v : Word, Decodes (.decs q) v ∧ asSigned64 v = signedValue q :=
  ⟨_, decodes_decs hq (by omega), asSigned64_signedValue hq h9⟩

/-- Ten bytes read alike in both decodes: the sign stands above bit 63. -/
theorem decodes_decs_of_ten {q : List Byte} (h10 : q.length = 10) :
    Decodes (.decs q) (BitVec.ofNat 64 (unsignedValue q)) := by
  rw [← accumulate_eq, ← signExtended_of_ten h10.ge, signExtended_eq]
  exact decodes_decs (List.ne_nil_of_length_pos (by omega)) h10.le

/-- Settles O31: nine bytes hold a signed value of 63 bits, and at ten the sign is lost above bit 63. -/
theorem decsGivesTheSignedValue : Obligations.DecsGivesTheSignedValue := fun _ =>
  ⟨overflows_decs, fun h => h ▸ refuses_decs_nil, fun h1 => decodes_decs_exact (List.ne_nil_of_length_pos h1),
    decodes_decs_of_ten⟩

theorem decodeSigned_of_clear {q : List Byte} (h : formSign q = false) (cfg : Config) :
    decodeSigned cfg q = decodeUnsigned cfg q := by
  rw [decodeSigned, decodeUnsigned, signExtended_of_clear h]

/-- Settles O32: with the sign bit clear the signed value is the unsigned one. -/
theorem decsWithSignClearIsDecu : Obligations.DecsWithSignClearIsDecu := by
  intro q hclear
  refine ⟨fun s => ?_, fun h1 h9 => ?_⟩
  · rw [exec_decs, exec_decu, decodeSigned_of_clear hclear]
  · have hq : q ≠ [] := List.ne_nil_of_length_pos h1
    obtain ⟨v, hdec, hv⟩ := decodes_decs_exact hq h9
    have hlt : unsignedValue q < 2 ^ (7 * q.length - 1) := by
      rw [← not_le, ← formSign_iff hq, hclear]; exact Bool.false_ne_true
    exact ⟨hlt, v, hdec, hv.trans (signedValue_of_clear hclear), hv⟩

/-- Settles O33: the complement of `U(s)` plus 1 is the magnitude of a negative `S(s)`. -/
theorem decsWithSignSetNegatesTheComplement : Obligations.DecsWithSignSetNegatesTheComplement := by
  rintro q L mag hset rfl hmag
  have hq := ne_nil_of_formSign hset
  have hL := bitlen_of_formSign hset
  have hval : signedValue q = -(mag : Int) := hmag ▸ signedValue_eq_neg_complement hset
  have hneg := (formSign_iff_signedValue_neg q).mp hset
  obtain ⟨hlo, -⟩ := signedValue_range hq
  have hle : (mag : Int) ≤ (2 ^ (7 * q.length - 1) : Nat) := by push_cast; omega
  rw [← hval]
  exact ⟨hL, hmag.trans (maskedNot_add_one (hL ▸ unsignedValue_lt q)), by omega, hL ▸ Int.ofNat_le.mp hle, rfl, hlo,
    Int.le_sub_one_of_lt hneg, decodes_decs hq, asSigned64_signedValue hq⟩

/-- Settles O34: `S(s)` is the two's-complement reading of the `7n`-bit number, and sign extension keeps it. -/
theorem decsIsOneSignExtension : Obligations.DecsIsOneSignExtension := by
  intro q h1 h10
  have hq : q ≠ [] := List.ne_nil_of_length_pos h1
  have hext : (BitVec.ofNat (7 * q.length) (unsignedValue q)).signExtend 64 = trunc64 (signedValue q) := by
    rw [signedValue_eq_toInt hq]; rfl
  rw [hext]
  exact ⟨decodes_decs hq h10, asSigned64_signedValue hq⟩

theorem toNat_mod_two (b : Byte) : b.toNat % 2 = (b.getLsbD 0).toNat := by
  revert b; decide

/-- Bit 63 of a ten-byte value is bit 0 of the tenth byte. -/
theorem getLsbD_63_of_nine {q : List Byte} (h9 : q.length = 9) (b : Byte) :
    (BitVec.ofNat 64 (unsignedValue (q ++ [b]))).getLsbD 63 = b.getLsbD 0 := by
  have hlt := unsignedValue_lt_of_length_le_nine h9.le
  rw [unsignedValue_concat_of_nine h9, Nat.add_comm, BitVec.getLsbD_ofNat, Nat.testBit_two_pow_mul_add _ hlt,
    ← payload_getLsbD b (by norm_num)]
  rfl

/-- The tenth group of a signed form holds bit 63 and copies of the sign. -/
theorem encodedByte_group_nine (v : Word) :
    encodedByte false (group (v.toInt % 2 ^ 70).toNat 9) = if asSigned64 v < 0 then 0x7F#8 else 0x00#8 := by
  have hlo := BitVec.le_toInt v
  have hhi := BitVec.toInt_lt (x := v)
  have hgroup : group (v.toInt % 2 ^ 70).toNat 9 = if asSigned64 v < 0 then 0x7F#7 else 0x00#7 := by
    apply BitVec.eq_of_toNat_eq
    rw [group_toNat, asSigned64]
    split
    · change _ = 127; omega
    · change _ = 0; omega
  rw [hgroup]
  split <;> rfl

theorem getLast_encodeSigned_of_ten {v : Word} (h10 : (encodeSigned Config.core v).length = 10) :
    (encodeSigned Config.core v).getLast? = some (if asSigned64 v < 0 then 0x7F#8 else 0x00#8) := by
  rw [encodeSigned_length] at h10
  rw [encodeSigned_eq _ core_spad, h10, emitGroups_concat, List.getLast?_concat, encodedByte_group_nine]

/-- Settles O35: at ten bytes the sign does not matter, and a form of ENCS holds copies of bit 63 above it. -/
theorem decsOfTenBytes : Obligations.DecsOfTenBytes := by
  refine ⟨fun q b h9 => ?any, fun v q henc h10 => ?encs, fun _ => rfl, fun _ => rfl, fun _ => rfl, fun _ => rfl⟩
  case any =>
    have hdec : ∀ c : Byte, Decodes (.decs (q ++ [c])) (BitVec.ofNat 64 (unsignedValue (q ++ [c]))) := fun c =>
      decodes_decs_of_ten (by simp [h9])
    refine ⟨_, hdec b, rfl, getLsbD_63_of_nine h9 b, fun c hc => ?_⟩
    rw [ofNat_unsignedValue_concat_of_nine h9, toNat_mod_two, ← hc, ← toNat_mod_two,
      ← ofNat_unsignedValue_concat_of_nine h9]
    exact hdec c
  case encs =>
    obtain rfl := henc.unique (encodes_encs v)
    exact ⟨decodes_decs_encodeSigned v, getLast_encodeSigned_of_ten h10⟩

/-! ### Redundant groups (41_decode R114) -/

/-- A last group of zeros adds nothing to the unsigned value. -/
theorem unsignedValue_concat_zero {b : Byte} (hb : payload b = 0x00#7) (q : List Byte) :
    unsignedValue (q ++ [b]) = unsignedValue q := by
  simp [unsignedValue_concat, hb]

/-- A last group that repeats the sign adds nothing to the signed value. -/
theorem signedValue_concat_sign {q : List Byte} {b : Byte}
    (h : (payload b = 0x00#7 ∧ formSign q = false) ∨ (payload b = 0x7F#7 ∧ formSign q = true)) :
    signedValue (q ++ [b]) = signedValue q := by
  obtain ⟨hb, hsign⟩ | ⟨hb, hsign⟩ := h
  · rw [signedValue_concat, hb, signedValue_of_clear hsign]
    simp
  · have hones : (0x7F#7).toInt = -1 := rfl
    rw [signedValue_concat, hb, hones, signedValue_of_set hsign]
    ring

/-- Settles O30: a redundant group keeps the value, and one group more is still a legal length. -/
theorem nonMinimalFormsAreAccepted : Obligations.NonMinimalFormsAreAccepted := by
  refine ⟨fun q b hq h9 => ?any, fun _ => rfl, fun _ => rfl, fun _ => rfl, fun _ => rfl⟩
  case any =>
    have hlen : (q ++ [b]).length ≤ 10 := by rw [List.length_append, List.length_singleton]; omega
    exact
      ⟨fun hb => ⟨_, decodes_decu hq (by omega),
        unsignedValue_concat_zero hb q ▸ decodes_decu (List.concat_ne_nil _ _) hlen⟩,
      fun hb => ⟨_, decodes_decs hq (by omega),
        signedValue_concat_sign hb ▸ decodes_decs (List.concat_ne_nil _ _) hlen⟩⟩

/-! ### Decoding under another length bound (41_decode R123) -/

/-- A sequence within two length bounds is treated alike under both. -/
theorem checkLength_of_le {cfg cfg' : Config} {q : List Byte} (h : q.length ≤ cfg.maxlen)
    (h' : q.length ≤ cfg'.maxlen) (v : Word) : checkLength cfg q v = checkLength cfg' q v := by
  rw [checkLength, checkLength, if_neg (not_lt.mpr h), if_neg (not_lt.mpr h')]

/-- A bound on the length decides whether ENCU's form decodes to its value. -/
theorem decodeUnsigned_encodeUnsigned (cfg : Config) (v : Word) :
    decodeUnsigned cfg (encodeUnsigned v) =
      if unsignedLength v.toNat ≤ cfg.maxlen then .decoded v else .lengthOverflow := by
  rw [← encodeUnsigned_length]
  split_ifs with h
  · rw [decodeUnsigned_legal (chain_encodeUnsigned v).1 h, unsignedValue_encodeUnsigned, BitVec.ofNat_toNat,
      BitVec.setWidth_eq]
  · exact decodeUnsigned_long (not_le.mp h)

/-- A bound on the length decides whether ENCS's form decodes to its value. -/
theorem decodeSigned_encodeSigned (cfg : Config) (v : Word) :
    decodeSigned cfg (encodeSigned Config.core v) =
      if signedLength v ≤ cfg.maxlen then .decoded v else .lengthOverflow := by
  rw [← encodeSigned_length]
  split_ifs with h
  · rw [decodeSigned_legal (chain_encodeSigned v).1 h, signedValue_encodeSigned, asSigned64, trunc64,
      BitVec.ofInt_toInt]
  · exact decodeSigned_long (not_le.mp h)

/-- Settles O40: eight bytes hold the values below `2^56` and the magnitudes below `2^55`. -/
theorem decodeUnderTheSourceBound : Obligations.DecodeUnderTheSourceBound := by
  refine ⟨fun q h8 => ?short, fun q h9 => ⟨decodeUnsigned_long h9, decodeSigned_long h9⟩, fun v => ?encu,
    fun v => ?encs⟩
  case short =>
    have h10 : q.length ≤ Config.core.maxlen := h8.trans (by decide)
    exact ⟨checkLength_of_le h8 h10 _, checkLength_of_le h8 h10 _⟩
  case encu =>
    have hfits : unsignedLength v.toNat ≤ 8 ↔ v.toNat < 2 ^ 56 := unsignedLength_le_iff (by norm_num) _
    exact (decodeUnsigned_encodeUnsigned _ v).trans (if_congr hfits rfl rfl)
  case encs =>
    have hfits : signedLength v ≤ 8 ↔ (asSigned64 v).natAbs ≤ 2 ^ 55 - 1 := by
      rw [signedLength_le_iff (by norm_num), Nat.le_sub_one_iff_lt (by positivity)]
    exact (decodeSigned_encodeSigned _ v).trans (if_congr hfits rfl rfl)

end Sys2Proof.Machine

namespace Sys2Proof.Machine

/-! ### Two's complement (42_laws R131) -/

theorem asSigned64_eq_ite (p : Word) :
    asSigned64 p = if p.toNat < 2 ^ 63 then (p.toNat : Int) else (p.toNat : Int) - 2 ^ 64 := by
  have htop : 2 * p.toNat < 2 ^ 64 ↔ p.toNat < 2 ^ 63 := by omega
  rw [asSigned64, BitVec.toInt_eq_toNat_cond, if_congr htop rfl rfl]
  rfl

theorem trunc64_asSigned64 (p : Word) : trunc64 (asSigned64 p) = p := BitVec.ofInt_toInt

theorem toNat_trunc64 (x : Int) : ((trunc64 x).toNat : Int) = x % 2 ^ 64 := by
  rw [trunc64, BitVec.toNat_ofInt]
  exact Int.toNat_of_nonneg (Int.emod_nonneg _ (by norm_num))

/-- Settles O14: the two conversions of 64 bits undo each other on the signed range. -/
theorem twosComplementReading : Obligations.TwosComplementReading :=
  ⟨asSigned64_eq_ite, trunc64_asSigned64, fun v hlo hhi => ⟨asSigned64_trunc64 hlo hhi, toNat_trunc64 v⟩⟩

/-! ### Values that want the padding (40_encode R95, 42_laws R139) -/

/-- The nonnegative values that fill their groups to the last bit: those that `SPAD = 1` pads. -/
def FillsItsGroups (v : Word) : Prop :=
  ∃ k : Nat, 1 ≤ k ∧ k ≤ 9 ∧ 2 ^ (7 * k - 1) ≤ asSigned64 v ∧ asSigned64 v < 2 ^ (7 * k)

theorem FillsItsGroups.nonneg {v : Word} (h : FillsItsGroups v) : 0 ≤ asSigned64 v := by
  obtain ⟨k, -, -, hlo, -⟩ := h
  exact le_trans (by positivity) hlo

theorem not_fillsItsGroups_of_neg {v : Word} (h : asSigned64 v < 0) : ¬ FillsItsGroups v :=
  fun hfill => absurd hfill.nonneg (not_le.mpr h)

theorem formSign_encodeUnsigned_iff_fillsItsGroups {v : Word} (h : 0 ≤ asSigned64 v) :
    formSign (encodeUnsigned v) = true ↔ FillsItsGroups v := by
  rw [formSign_encodeUnsigned_iff_range h, FillsItsGroups, ← toNat_eq_asSigned64 h]
  norm_cast

/-- The padding concerns nonnegative values alone. -/
theorem encodeSigned_of_neg_congr {v : Word} (h : asSigned64 v < 0) (cfg cfg' : Config) :
    encodeSigned cfg v = encodeSigned cfg' v := by
  rw [encodeSigned, encodeSigned, if_neg (not_le.mpr h), if_neg (not_le.mpr h)]

/-- Without padding, the sign bit is the value's sign unless the value wants the padding. -/
theorem formSign_unpadded_iff_neg_iff {cfg : Config} (hc : cfg.spad = false) (v : Word) :
    (formSign (encodeSigned cfg v) = true ↔ asSigned64 v < 0) ↔ ¬ FillsItsGroups v := by
  obtain hneg | hnonneg := lt_or_ge (asSigned64 v) 0
  · rw [encodeSigned_of_neg_congr hneg cfg Config.core]
    exact iff_of_true (formSign_encodeSigned_iff v) (not_fillsItsGroups_of_neg hneg)
  · rw [encodeSigned_of_nonneg_of_not_spad hc hnonneg, formSign_encodeUnsigned_iff_fillsItsGroups hnonneg,
      iff_false_right (not_lt.mpr hnonneg)]

/-! ### The first round-trip law (42_laws R136) -/

theorem decodeSigned_core_encodeSigned (v : Word) :
    decodeSigned Config.core (encodeSigned Config.core v) = .decoded v :=
  (decodeSigned_encodeSigned _ v).trans (if_pos (signedLength_le v))

theorem decodeUnsigned_core_encodeUnsigned (v : Word) :
    decodeUnsigned Config.core (encodeUnsigned v) = .decoded v :=
  (decodeUnsigned_encodeUnsigned _ v).trans (if_pos (unsignedLength_le v))

/-- A nonnegative value has no bit 63, so nine bytes hold it. -/
theorem encodeUnsigned_length_le_nine {v : Word} (h : 0 ≤ asSigned64 v) : (encodeUnsigned v).length ≤ 9 := by
  have hbits := bitlen_le_of_nonneg h
  rw [encodeUnsigned_length, unsignedLength]; omega

/-- Read as signed, the unsigned form of a nonnegative value gives it back unless its sign bit is set: then the value
read is negative. -/
theorem decodeSigned_encodeUnsigned_iff {v : Word} (h : 0 ≤ asSigned64 v) :
    decodeSigned Config.core (encodeUnsigned v) = .decoded v ↔ ¬ formSign (encodeUnsigned v) = true := by
  have hne := (chain_encodeUnsigned v).1
  constructor
  · intro hdec hset
    rw [decodeSigned_legal hne (encodeUnsigned_length_le v), Result.decoded.injEq] at hdec
    have hval := asSigned64_signedValue hne (encodeUnsigned_length_le_nine h)
    rw [hdec] at hval
    exact absurd ((formSign_iff_signedValue_neg _).mp hset) (not_lt.mpr (hval ▸ h))
  · intro hclear
    rw [decodeSigned_of_clear (Bool.eq_false_of_not_eq_true hclear), decodeUnsigned_core_encodeUnsigned]

/-- Without padding, exactly the values that want it do not round-trip. -/
theorem decodeSigned_unpadded_iff {cfg : Config} (hc : cfg.spad = false) (v : Word) :
    decodeSigned Config.core (encodeSigned cfg v) = .decoded v ↔ ¬ FillsItsGroups v := by
  obtain hneg | hnonneg := lt_or_ge (asSigned64 v) 0
  · rw [encodeSigned_of_neg_congr hneg cfg Config.core]
    exact iff_of_true (decodeSigned_core_encodeSigned v) (not_fillsItsGroups_of_neg hneg)
  · rw [encodeSigned_of_nonneg_of_not_spad hc hnonneg, decodeSigned_encodeUnsigned_iff hnonneg,
      formSign_encodeUnsigned_iff_fillsItsGroups hnonneg]

/-- A decode bounded by a condition gives its value exactly when the condition holds. -/
theorem ite_decoded_eq_iff (c : Prop) [Decidable c] (v : Word) :
    (if c then Result.decoded v else .lengthOverflow) = .decoded v ↔ c := by
  simp

/-- Settles O41: the forms hold the value at every length, eight bytes hold the values of R123, and without padding
the values that want it read as negative. -/
theorem decodeOfEncodeIsIdentity : Obligations.DecodeOfEncodeIsIdentity := by
  obtain ⟨-, -, hencu, hencs⟩ := decodeUnderTheSourceBound
  refine ⟨fun u => ⟨_, encodes_encu u, decodes_decu_encodeUnsigned u⟩,
    fun i => ⟨_, encodes_encs i, decodes_decs_encodeSigned i⟩, fun u => ?_, fun i => ?_,
    fun i => decodeSigned_unpadded_iff rfl i⟩
  · rw [hencu, ite_decoded_eq_iff]
  · rw [hencs, ite_decoded_eq_iff]

/-! ### The second round-trip law (42_laws R137) -/

/-- A minimal unsigned form has the length that ENCU gives its value. -/
theorem unsignedLength_of_minimal {b : List Byte} (h : minimalUnsigned b = true) :
    unsignedLength (unsignedValue b) = b.length := by
  obtain rfl | ⟨q, c, rfl⟩ := List.eq_nil_or_concat' b
  · cases h
  have hlt := unsignedValue_lt (q ++ [c])
  obtain rfl | hq := eq_or_ne q []
  · exact (unsignedLength_eq_one_iff _).mpr (Nat.le_of_lt_succ hlt)
  · have hpay : 1 ≤ (payload c).toNat :=
      Nat.pos_of_ne_zero fun h0 =>
        ((minimalUnsigned_concat q c).mp h).resolve_left hq (BitVec.eq_of_toNat_eq h0)
    have hpos := List.length_pos_iff.mpr hq
    have hlen : (q ++ [c]).length = q.length + 1 := by rw [List.length_append, List.length_singleton]
    rw [hlen] at hlt ⊢
    refine (unsignedLength_eq_iff (by omega) _).mpr ⟨?_, hlt⟩
    rw [unsignedValue_concat, Nat.add_sub_cancel]
    exact (Nat.le_mul_of_pos_right _ hpay).trans (Nat.le_add_left _ _)

/-- ENCU gives a minimal form of its value back: the chain, the length and the value determine it. -/
theorem encodeUnsigned_of_minimal {b : List Byte} (hchain : ChainWellFormed b) (hmin : minimalUnsigned b = true)
    {v : Word} (hv : v.toNat = unsignedValue b) : encodeUnsigned v = b := by
  rw [encodeUnsigned_eq, hv, unsignedLength_of_minimal hmin, emitGroups_of_chain hchain]

/-- A form of up to ten bytes has a 64-bit value when a tenth byte is bit 63 alone. -/
theorem unsignedValue_lt_of_last_one {b : List Byte} (h10 : b.length ≤ 10)
    (hlast : b.length = 10 → b.getLast? = some 0x01#8) : unsignedValue b < 2 ^ 64 := by
  obtain h9 | hten := Nat.le_or_eq_of_le_succ h10
  · exact (unsignedValue_lt_of_length_le_nine h9).trans (by norm_num)
  · obtain ⟨q, c, rfl, hq⟩ := eq_concat_of_length hten
    obtain rfl : c = 0x01#8 := by simpa using hlast hten
    have hone : (payload 0x01#8).toNat = 1 := rfl
    have hlt := unsignedValue_lt_of_length_le_nine hq.le
    rw [unsignedValue_concat_of_nine hq, hone]
    omega

/-- A form of up to ten bytes has a signed value of 64 bits when a tenth byte is all sign. -/
theorem asSigned64_signedValue_of_last_sign {b : List Byte} (hb : b ≠ []) (h10 : b.length ≤ 10)
    (hlast : b.length = 10 → b.getLast? = some 0x00#8 ∨ b.getLast? = some 0x7F#8) :
    asSigned64 (trunc64 (signedValue b)) = signedValue b := by
  obtain h9 | hten := Nat.le_or_eq_of_le_succ h10
  · exact asSigned64_signedValue hb h9
  · obtain ⟨q, c, rfl, hq⟩ := eq_concat_of_length hten
    have hpay : (payload c).toInt = 0 ∨ (payload c).toInt = -1 := by
      refine (hlast hten).imp (fun h => ?_) (fun h => ?_)
      · obtain rfl : c = 0x00#8 := by simpa using h
        rfl
      · obtain rfl : c = 0x7F#8 := by simpa using h
        rfl
    have hlt := unsignedValue_lt_of_length_le_nine hq.le
    rw [signedValue_concat, hq]
    exact asSigned64_trunc64 (by omega) (by omega)

/-- Of the chains of `k` bytes only one has the least value. -/
theorem eq_least_of_signedValue {b : List Byte} (hchain : ChainWellFormed b)
    (hval : signedValue b = -2 ^ (7 * b.length - 1)) : b = List.replicate (b.length - 1) 0x80#8 ++ [0x40#8] := by
  have hpos := List.length_pos_iff.mpr hchain.1
  have hlast : ChainWellFormed [0x40#8] := by decide
  refine hchain.eq_of_signedValue (hlast.replicate_append _) ?_ (hval.trans (signedValue_least rfl hpos).symm)
  rw [List.length_append, List.length_replicate, List.length_singleton, Nat.sub_add_cancel hpos]

/-- A minimal signed form whose value is not the least of its length has the length that ENCS gives its value. -/
theorem signedLength_of_minimal {b : List Byte} (hb : b ≠ []) (hmin : minimalSigned b = true)
    (hleast : signedValue b ≠ -2 ^ (7 * b.length - 1)) {v : Word} (hv : asSigned64 v = signedValue b) :
    signedLength v = b.length := by
  have hpos := List.length_pos_iff.mpr hb
  have hle : signedLength v ≤ b.length := by
    obtain ⟨hlo, hhi⟩ := signedValue_range hb
    rw [signedLength_le_iff hpos, hv]
    zify
    rw [abs_lt]
    exact ⟨lt_of_le_of_ne hlo hleast.symm, hhi⟩
  have hge : b.length ≤ signedLength v := by
    obtain ⟨n, hn⟩ := Nat.exists_eq_add_of_le' hpos
    obtain rfl | h1 := Nat.eq_zero_or_pos n
    · exact hn.trans_le (signedLength_pos v)
    · rw [hn, Nat.succ_le_iff, ← not_le, signedLength_le_iff h1, hv]
      intro hmag
      zify at hmag
      obtain ⟨hlo, hhi⟩ := abs_lt.mp hmag
      have hdrop := (minimalSigned_iff_range hn h1).mpr ⟨hlo.le, hhi⟩
      exact absurd (hmin.symm.trans hdrop) (by decide)
  exact le_antisymm hle hge

/-- ENCS gives a minimal form of its value back unless the value is the least of its length. -/
theorem encodeSigned_of_minimal {b : List Byte} (hchain : ChainWellFormed b) (hmin : minimalSigned b = true)
    (hleast : signedValue b ≠ -2 ^ (7 * b.length - 1)) {v : Word} (hv : asSigned64 v = signedValue b) :
    encodeSigned Config.core v = b := by
  refine (chain_encodeSigned v).eq_of_signedValue hchain ?_ ((signedValue_encodeSigned v).trans hv)
  rw [encodeSigned_length, signedLength_of_minimal hchain.1 hmin hleast hv]

/-- A form that ENCU gives decodes to the value it was given for. -/
theorem Encodes.decodes_decu {u : Word} {q : List Byte} (h : Encodes (.encu u) q) : Decodes (.decu q) u :=
  h.unique (encodes_encu u) ▸ decodes_decu_encodeUnsigned u

/-- A form that ENCS gives decodes to the value it was given for. -/
theorem Encodes.decodes_decs {i : Word} {q : List Byte} (h : Encodes (.encs i) q) : Decodes (.decs q) i :=
  h.unique (encodes_encs i) ▸ decodes_decs_encodeSigned i

/-- Settles O42: a minimal form has the length its encoder gives, so chain, length and value determine it; at ten bytes
no signed 64-bit value is the least of its length. -/
theorem encodeOfDecodeIsIdentityOnMinimalForms : Obligations.EncodeOfDecodeIsIdentityOnMinimalForms := by
  refine ⟨fun b hchain h10 hmin hlast => ?unsigned, fun b hchain h10 hmin hlast hnine => ?signed,
    fun k h1 h9 => ?nine, fun u b h => ⟨u, h.decodes_decu, h⟩, fun i b h => ⟨i, h.decodes_decs, h⟩⟩
  case unsigned =>
    obtain ⟨v, hdec, hv⟩ := decodes_decu_exact hchain.1 h10 (unsignedValue_lt_of_last_one h10 hlast)
    have henc := encodes_encu v
    rw [encodeUnsigned_of_minimal hchain hmin hv] at henc
    exact ⟨v, hdec, henc⟩
  case signed =>
    have hval := asSigned64_signedValue_of_last_sign hchain.1 h10 hlast
    have hleast : signedValue b ≠ -2 ^ (7 * b.length - 1) := by
      intro heq
      obtain h9 | hten := Nat.le_or_eq_of_le_succ h10
      · exact hnine b.length (List.length_pos_iff.mpr hchain.1) h9 (eq_least_of_signedValue hchain heq)
      · have hlo : -2 ^ 63 ≤ asSigned64 (trunc64 (signedValue b)) := BitVec.le_toInt _
        rw [hval, heq, hten] at hlo
        norm_num at hlo
    have henc := encodes_encs (trunc64 (signedValue b))
    rw [encodeSigned_of_minimal hchain hmin hleast hval] at henc
    exact ⟨_, decodes_decs hchain.1 h10, henc⟩
  case nine =>
    obtain ⟨henc, -, -, hdec⟩ := encsIsNotMinimalAtNineValues.1 k h1 h9
    exact ⟨_, hdec, henc⟩

/-! ### Bit-length and complement (42_laws R133, R134) -/

theorem bitlen_two_pow_sub_one (k : Nat) : bitlen (2 ^ k - 1) = k := by
  refine eq_of_forall_ge_iff fun j => ?_
  have hpos : 0 < 2 ^ k := by positivity
  rw [bitlen_le_iff, ← Nat.pow_le_pow_iff_right Nat.one_lt_two]
  omega

theorem two_pow_bitlen_bounds {x : Nat} (h : 1 ≤ x) : 2 ^ (bitlen x - 1) ≤ x ∧ x < 2 ^ bitlen x := by
  have hpos := (bitlen_pos_iff x).mpr h
  exact ⟨(lt_bitlen_iff x _).mp (by omega), (bitlen_le_iff x _).mp le_rfl⟩

/-- The width of ENCS is the first multiple of 7 above the bit-length. -/
theorem signedWidth_le {m w : Nat} (h7 : 7 ∣ w) (hw : bitlen m < w) : signedWidth m ≤ w := by
  rw [signedWidth]; omega

theorem bitlen_magnitude_range {v : Word} (h : asSigned64 v < 0) :
    1 ≤ bitlen (-asSigned64 v).toNat ∧ bitlen (-asSigned64 v).toNat ≤ 64 := by
  obtain ⟨h1, h63⟩ := magnitude_range h (Int.toNat_of_nonneg (by omega))
  exact ⟨(bitlen_pos_iff _).mpr h1, (bitlen_le_iff _ _).mpr (h63.trans_lt (by norm_num))⟩

/-- Settles O12, from what bit-length is: the least `k` with `x < 2^k`. -/
theorem bitLengthLaws : Obligations.BitLengthLaws :=
  ⟨rfl, fun _ => two_pow_bitlen_bounds, fun k => ⟨bitlen_two_pow k, bitlen_two_pow_sub_one k⟩,
    fun m => ⟨Nat.dvd_mul_right 7 _, bitlen_lt_signedWidth m, fun _ => signedWidth_le⟩,
    fun _ => bitlen_magnitude_range⟩

/-- The magnitude that DECS negates: `U(s)` is at least half of `2^(7n)`. -/
theorem complement_le_of_formSign {s : List Byte} (h : formSign s = true) :
    maskedNot (7 * s.length) (unsignedValue s) + 1 ≤ 2 ^ (7 * s.length - 1) := by
  have hs := ne_nil_of_formSign h
  have hpos := List.length_pos_iff.mpr hs
  have hhalf := (formSign_iff hs).mp h
  have hwidth : 2 ^ (7 * s.length) = 2 * 2 ^ (7 * s.length - 1) := by
    rw [← pow_succ', Nat.sub_add_cancel (by omega)]
  rw [maskedNot_add_one (unsignedValue_lt s)]
  omega

/-- Settles O13: `2^(7n)` less a number of at least half of it. -/
theorem complementAndNegation : Obligations.ComplementAndNegation := by
  refine ⟨fun N m _ hm => maskedNot_add_one hm, rfl, fun s hset => ?_⟩
  have hle := complement_le_of_formSign hset
  exact ⟨Nat.le_add_left 1 _, hle, fun h9 => hle.trans (Nat.pow_le_pow_right (by norm_num) (by omega))⟩

/-! ### Termination (42_laws R142) -/

/-- Settles O25: ten groups hold 64 bits, and with fuel for them the loop emits those below the bit-length. -/
theorem tenIterationsSuffice : Obligations.TenIterationsSuffice := by
  intro v fuel h10
  have hfits : ∀ n, 10 ≤ n → v.toNat < 2 ^ (7 * n) := fun n hn =>
    v.isLt.trans_le (Nat.pow_le_pow_right (by norm_num) (by omega))
  rw [encuLoop_eq fuel v (hfits fuel h10), encuLoop_eq 10 v (hfits 10 le_rfl)]

/-! ### Totality and determinism (42_laws R141) -/

/-- Outside the domain every operation is refused (41_decode R120). -/
theorem refuses_of_not_wf {i : Instr} (h : i.wf = false) : Refuses i := by
  cases i with
  | encu v => cases h
  | encs v => cases h
  | decu q =>
    obtain rfl : q = [] := by simpa [Instr.wf] using h
    exact refuses_decu_nil
  | decs q =>
    obtain rfl : q = [] := by simpa [Instr.wf] using h
    exact refuses_decs_nil

/-- Settles O37: in the domain an operation answers, and outside it is refused. -/
theorem onlyTheEmptySequenceStops : Obligations.OnlyTheEmptySequenceStops := by
  intro i s
  cases hwf : i.wf with
  | true =>
    obtain ⟨a, ha⟩ := answers_of_wf hwf
    exact .inl ⟨rfl, a, ha s⟩
  | false => exact .inr ⟨rfl, refuses_of_not_wf hwf s⟩

/-- Settles O45: an encode's form decodes to its one value; a redundant zero group makes a second form of 0. -/
theorem everyRequestInTheDomainHasOneResponse : Obligations.EveryRequestInTheDomainHasOneResponse := by
  refine ⟨fun r hwf => ?one, fun u u' q h h' => h.decodes_decu.unique h'.decodes_decu,
    fun i i' q h h' => h.decodes_decs.unique h'.decodes_decs,
    ⟨[0x00#8], [0x80#8, 0x00#8], 0, by decide, fun _ => rfl, fun _ => rfl⟩,
    ⟨[0x00#8], [0x80#8, 0x00#8], 0, by decide, fun _ => rfl, fun _ => rfl⟩⟩
  case one =>
    obtain ⟨a, ha⟩ := answers_of_wf hwf
    exact ⟨a, ha, fun b hb => hb.unique ha⟩

/-- A step from a state whose requests lie in the domain goes on to such a state. -/
theorem step_inDomain {s : State} (h : s.InDomain) : ∃ t, step s = .next t ∧ t.InDomain := by
  cases hp : s.pending with
  | nil => exact ⟨s, step_of_idle hp, h⟩
  | cons r rest =>
    rw [State.InDomain, hp] at h
    obtain ⟨hr, hrest⟩ := List.forall_mem_cons.mp h
    obtain ⟨a, ha⟩ := answers_of_wf hr
    exact ⟨_, step_of_pending_answers hp ha, hrest⟩

/-- Settles O52, by induction on the number of steps. -/
theorem requestsInTheDomainNeverStopTheMachine : Obligations.RequestsInTheDomainNeverStopTheMachine := by
  intro k
  induction k with
  | zero => exact fun s h => ⟨s, core_run_zero s, h⟩
  | succ k ih =>
    intro s h
    obtain ⟨t, hstep, ht⟩ := step_inDomain h
    obtain ⟨u, hrun, hu⟩ := ih t ht
    exact ⟨u, (core_run_succ k hstep).trans hrun, hu⟩

/-! ### The sign and the minimality of ENCS forms (42_laws R139, R140) -/

/-- Settles O43: the form's sign is its value's, and without padding it fails where the value wants it. -/
theorem lastSignBitIsTheSign : Obligations.LastSignBitIsTheSign := by
  refine ⟨fun v => ?_, fun v => formSign_unpadded_iff_neg_iff rfl v⟩
  obtain ⟨q, b, hq⟩ := (List.eq_nil_or_concat' _).resolve_left (chain_encodeSigned v).1
  have hsign := formSign_encodeSigned_iff v
  rw [hq, formSign_concat] at hsign
  exact ⟨q, b, hq ▸ encodes_encs v, hsign⟩

/-- Dropping the last group of a positive value's form changes what it decodes to: only negative values have a
droppable group. -/
theorem decodes_decs_ne_of_drop {v : Word} {p : List Byte} {b : Byte} (hv : 0 < asSigned64 v) (hp : p ≠ [])
    (h : Encodes (.encs v) (p ++ [b])) : ∃ w, Decodes (.decs p) w ∧ w ≠ v := by
  have hform := h.unique (encodes_encs v)
  have hlen : p.length + 1 ≤ 10 := by
    have hle := encodeSigned_length_le v
    rwa [← hform, List.length_append, List.length_singleton] at hle
  obtain ⟨w, hdec, hw⟩ := decodes_decs_exact hp (Nat.le_of_succ_le_succ hlen)
  refine ⟨w, hdec, ?_⟩
  rintro rfl
  have hdrop : signedValue (p ++ [b]) = signedValue p := by rw [hform, signedValue_encodeSigned, hw]
  rw [← minimalSigned_concat_iff hp, hform, minimalSigned_encodeSigned_iff] at hdrop
  obtain ⟨k, -, -, hk⟩ := hdrop
  have hpow : (0 : Int) < 2 ^ (7 * k - 1) := by positivity
  omega

/-- Settles O44: the nine forms end in a group of ones above the least value of their other groups, and no positive
value has a droppable group. -/
theorem encodingIsMinimalWithNineExceptions : Obligations.EncodingIsMinimalWithNineExceptions := by
  refine ⟨fun v => ?unsigned, encuOfZeroIsOneZeroByte, fun v => ⟨_, encodes_encs v, ?signed⟩,
    fun v k h1 h9 hv => ?nine, fun v p hv henc => decodes_decs_ne_of_drop hv ?padded henc⟩
  case unsigned =>
    obtain ⟨q, henc, -, -, -, -, -, hmin, -⟩ := encuResultProperties v
    exact ⟨q, henc, hmin⟩
  case signed => rw [← minimalSigned_encodeSigned_iff, Bool.not_eq_false]
  case nine =>
    have hform : encodeSigned Config.core v = List.replicate (k - 1) 0x80#8 ++ [0xC0#8] ++ [0x7F#8] := by
      rw [encodeSigned_neg_two_pow h1 hv, List.append_assoc]; rfl
    have hval : signedValue (List.replicate (k - 1) 0x80#8 ++ [0xC0#8]) = asSigned64 v :=
      (signedValue_least rfl h1).trans hv.symm
    have hlen : (List.replicate (k - 1) 0x80#8 ++ [0xC0#8]).length ≤ 10 := by
      rw [List.length_append, List.length_replicate, List.length_singleton]; omega
    have hdec := decodes_decs (List.concat_ne_nil _ _) hlen
    rw [hval, trunc64_asSigned64] at hdec
    have hmin := (minimalSigned_encodeSigned_iff v).mpr ⟨k, h1, h9, hv⟩
    exact ⟨_, hform ▸ encodes_encs v, hform ▸ hmin, hval, hdec⟩
  case padded =>
    rintro rfl
    have hzero := congrArg signedValue (henc.unique (encodes_encs v))
    rw [signedValue_encodeSigned] at hzero
    exact hv.ne hzero

/-! ### The two decodes compared (42_laws R143) -/

/-- Settles O46: `S(s)` is `U(s)` less `2^(7n)` where the sign bit is set, and nine bytes hold both. -/
theorem signedAndUnsignedDecodeCompared : Obligations.SignedAndUnsignedDecodeCompared := by
  refine ⟨fun q h1 h9 => ?_, fun _ => rfl, fun _ => rfl, fun _ => rfl, fun _ => rfl⟩
  have hq : q ≠ [] := List.ne_nil_of_length_pos h1
  have hlt := unsignedValue_lt_of_length_le_nine h9
  obtain ⟨u, hdecu, hu⟩ := decodes_decu_exact hq (by omega) (by omega)
  obtain ⟨i, hdecs, hi⟩ := decodes_decs_exact hq h9
  refine ⟨u, i, hdecu, hdecs, ?_⟩
  rw [hi, hu]
  cases hsign : formSign q with
  | false => rw [signedValue_of_clear hsign]; simp
  | true => rw [signedValue_of_set hsign, if_pos rfl]

end Sys2Proof.Machine

namespace Sys2Proof.Machine

/-! ### The one error and what it leaves behind (60_exceptions R152, R156) -/

/-- A legal response completed or overflowed; the codes 2 and 3 are set aside (60_exceptions R152). -/
theorem Response.Legal.status_eq {a : Response} (h : a.Legal) : a.status = 0#2 ∨ a.status = 1#2 := by
  obtain ⟨v, rfl⟩ | ⟨q, rfl, -⟩ | rfl := h
  · exact .inl rfl
  · exact .inl rfl
  · exact .inr rfl

/-- No operation reads the response of the transaction before it: its own is the same from every state, and replaces
the one held. -/
theorem exec_respond (i : Instr) (s : State) (r : Response) : exec i (s.respond r) = exec i s := by
  obtain ⟨a, -, hans⟩ | href := answers_legal_or_refuses i
  · exact (hans (s.respond r)).trans (hans s).symm
  · exact (href (s.respond r)).trans (href s).symm

/-- Settles O50: all an error leaves behind is its response, which no operation reads. -/
theorem errorDoesNotOutliveItsTransaction : Obligations.ErrorDoesNotOutliveItsTransaction := by
  intro q e hlen he s
  have hover : Overflows e := by
    obtain rfl | rfl := he
    · exact overflows_decu hlen
    · exact overflows_decs hlen
  exact ⟨s.respond overflowResponse, hover s, hover _, fun i => exec_respond i s overflowResponse⟩

/-- Settles O49: an operation that completes has given a legal response, and a nonempty decode lies in the domain. -/
theorem notImplementedNeverAppears : Obligations.NotImplementedNeverAppears := by
  refine ⟨fun r s t h => ?status, fun q hq => ⟨?decu, ?decs⟩⟩
  case status =>
    obtain ⟨a, hlegal, rfl⟩ := exec_next h
    exact ⟨a, rfl, hlegal.status_eq⟩
  case decu => exact answers_of_wf ((wf_decu_iff q).mpr hq)
  case decs => exact answers_of_wf ((wf_decs_iff q).mpr hq)

end Sys2Proof.Machine

namespace Sys2Proof.Machine

/-! ### Framing mistakes (70_reset R184) -/

/-- Settles O53: a decode of 1 to 10 bytes gives a value, whatever the bytes. -/
theorem framingMistakesAreSilent : Obligations.FramingMistakesAreSilent :=
  ⟨fun _ => exists_decodes_of_length, fun _ => rfl, fun _ => rfl, fun _ => rfl⟩

/-! ### Decoding with the other signedness (70_reset R186) -/

theorem asSigned64_ne_toNat_iff (p : Word) : asSigned64 p ≠ (p.toNat : Int) ↔ 2 ^ 63 ≤ p.toNat := by
  rw [asSigned64_eq_ite]
  split <;> omega

/-- Only values below `2^63` have an unsigned form with its sign bit set: the tenth byte of a longer one is 1. -/
theorem toNat_lt_of_formSign_encodeUnsigned {u : Word} (h : formSign (encodeUnsigned u) = true) :
    u.toNat < 2 ^ 63 := by
  obtain ⟨h7, -⟩ := (formSign_encodeUnsigned_iff u).mp h
  have hbits := bitlen_word_le u
  rw [← bitlen_le_iff]
  omega

/-- An unsigned form with its sign bit set reads as negative, though its value is not, even as 64 bits. -/
theorem decodes_decs_encodeUnsigned_neg {u : Word} (h : formSign (encodeUnsigned u) = true) :
    ∃ w : Word, Decodes (.decs (encodeUnsigned u)) w ∧ asSigned64 w < 0 ∧ 0 ≤ asSigned64 u := by
  have hlt := toNat_lt_of_formSign_encodeUnsigned h
  have hnonneg : 0 ≤ asSigned64 u := by
    rw [asSigned64_eq_ite, if_pos hlt]; exact Int.natCast_nonneg _
  obtain ⟨w, hdec, hw⟩ := decodes_decs_exact (chain_encodeUnsigned u).1 (encodeUnsigned_length_le_nine hnonneg)
  exact ⟨w, hdec, hw ▸ (formSign_iff_signedValue_neg _).mp h, hnonneg⟩

/-- The signed form of a nonnegative value, padded or not, reads the same as unsigned. -/
theorem decodes_decu_encodeSigned_of_nonneg {i : Word} (h : 0 ≤ asSigned64 i) :
    Decodes (.decu (encodeSigned Config.core i)) i := by
  have hclear : formSign (encodeSigned Config.core i) = false := by
    rw [← Bool.not_eq_true, formSign_encodeSigned_iff]; exact not_lt.mpr h
  obtain ⟨hsame, -⟩ := decsWithSignClearIsDecu _ hclear
  exact fun s => (hsame s).symm.trans (decodes_decs_encodeSigned i s)

/-- The unsigned value of a negative value's form stands `2^(7n)` above it. -/
theorem unsignedValue_encodeSigned_of_neg {i : Word} (h : asSigned64 i < 0) :
    (unsignedValue (encodeSigned Config.core i) : Int) =
      asSigned64 i + 2 ^ (7 * (encodeSigned Config.core i).length) := by
  have hval := signedValue_of_set ((formSign_encodeSigned_iff i).mpr h)
  rw [signedValue_encodeSigned] at hval
  omega

/-- Settles O54: a set sign bit makes an unsigned form read as negative, and it is set on the signed forms of exactly
the negative values, which no unsigned reading gives. -/
theorem signednessMustMatch : Obligations.SignednessMustMatch := by
  refine ⟨fun u => ?unsigned, fun i => ?signed, ⟨_, encodes_encu 127, fun _ => rfl⟩,
    ⟨_, encodes_encu 64, fun _ => rfl⟩, ⟨_, encodes_encs (trunc64 (-1)), fun _ => rfl⟩,
    ⟨_, encodes_encs (trunc64 (-123456)), fun _ => rfl⟩, fun _ => rfl, fun _ => rfl⟩
  case unsigned =>
    cases hsign : formSign (encodeUnsigned u) with
    | false =>
      refine ⟨_, u, encodes_encu u, decodes_decs_encodeUnsigned_of_clear hsign, ?_, ?_⟩
      · simp [hsign]
      · rw [asSigned64_ne_toNat_iff]
        simp [hsign]
    | true =>
      obtain ⟨w, hdec, hneg, hnonneg⟩ := decodes_decs_encodeUnsigned_neg hsign
      refine ⟨_, w, encodes_encu u, hdec, iff_of_true ?_ hsign, iff_of_true (by omega) (.inl hsign)⟩
      rintro rfl
      omega
  case signed =>
    obtain hneg | hnonneg := lt_or_ge (asSigned64 i) 0
    · refine ⟨_, _, encodes_encs i, decodes_decu (chain_encodeSigned i).1 (encodeSigned_length_le i),
        iff_of_true (by omega) hneg, fun _ h9 => ?_⟩
      have hlt := unsignedValue_lt_of_length_le_nine h9
      rw [BitVec.toNat_ofNat, Nat.mod_eq_of_lt (by omega), unsignedValue_encodeSigned_of_neg hneg]
    · have hnot := not_lt.mpr hnonneg
      exact ⟨_, i, encodes_encs i, decodes_decu_encodeSigned_of_nonneg hnonneg,
        iff_of_false (not_not_intro (toNat_eq_asSigned64 hnonneg)) hnot, fun hneg => absurd hneg hnot⟩

/-! ### Interworking with the source's settings (70_reset R187) -/

/-- A decode bounded by a condition overflows exactly when the condition fails. -/
theorem ite_eq_lengthOverflow_iff (c : Prop) [Decidable c] (v : Word) :
    (if c then Result.decoded v else .lengthOverflow) = .lengthOverflow ↔ ¬ c := by
  simp

/-- Settles O55: the rejected forms are those longer than eight bytes, a missing padding group costs `2^(7k)`, and
neither the padding nor minimality matters to a decode. -/
theorem interworkingWithTheSourceSettings : Obligations.InterworkingWithTheSourceSettings := by
  obtain ⟨-, -, hencu, hencs⟩ := decodeUnderTheSourceBound
  refine ⟨fun u => ?rejectsUnsigned, fun i => ?rejectsSigned, fun i k h1 h9 hlo hhi => ?unpadded,
    fun i => (decodeSigned_encodeSigned _ i).trans (if_pos (signedLength_le i)), fun k h1 h9 => ?minimal⟩
  case rejectsUnsigned => rw [hencu, ite_eq_lengthOverflow_iff, not_lt]
  case rejectsSigned => rw [hencs, ite_eq_lengthOverflow_iff]; omega
  case unpadded =>
    have hnonneg : 0 ≤ asSigned64 i := FillsItsGroups.nonneg ⟨k, h1, h9, hlo, hhi⟩
    obtain ⟨q, b, -, -, -, -, -, hform, -, hwrong⟩ := encsOfNonnegativeDelegatesAndPads i hnonneg
    rw [← toNat_eq_asSigned64 hnonneg] at hlo hhi ⊢
    rw [hform]
    exact hwrong k h1 h9 (by exact_mod_cast hlo) (by exact_mod_cast hhi)
  case minimal =>
    obtain ⟨-, -, -, hdec⟩ := encsIsNotMinimalAtNineValues.1 k h1 h9
    exact hdec

end Sys2Proof.Machine
